-- ==== Sys2Proof/Word.lean ====
section
/-!
DEFINITION. The bit vectors of the core: the widths of spec/00_scope.md R6 and R8, and of its glossary.
Bits are numbered from 0 at the least significant end (R7).
-/

namespace Sys2Proof

/-- Eight bits: the unit of memory (spec/20_memory.md R40). -/
abbrev Byte := BitVec 8

/-- Sixteen bits: a halfword of spec/45_load_store.md, and an immediate field. -/
abbrev Half := BitVec 16

/-- Thirty-two bits: a register, an address, an instruction word (spec/00_scope.md R6, R8). -/
abbrev Word := BitVec 32

/-- Sixty-four bits: the product of spec/42_multiply_divide.md R120 and R121. -/
abbrev DWord := BitVec 64

end Sys2Proof
end

