-- ==== Sys2Proof/Syntax.lean ====
section
/-!
DEFINITION. The 44 instructions of spec/00_scope.md R2, one constructor per row of spec/opcode_table.json, in the order R2 gives.
A constructor holds the fields its instruction uses, and no others (spec/30_encoding.md R65: the rest are ignored).
Each field has exactly the width of its encoding (R61, R62, R63), so every term of Instr has an encoding.
-/

namespace Sys2Proof

/-- A general register number, 0 to 31 (spec/10_state.md R20, spec/30_encoding.md R72). -/
abbrev Reg := Fin 32

/-- The instruction set of spec/00_scope.md R2. Operands stand in the order of spec/30_encoding.md R73. -/
inductive Instr where
  /-- R100 -/
  | add (rd rs rt : Reg)
  /-- R101 -/
  | addu (rd rs rt : Reg)
  /-- R102 -/
  | sub (rd rs rt : Reg)
  /-- R103 -/
  | subu (rd rs rt : Reg)
  /-- R104 -/
  | addi (rt rs : Reg) (imm : Half)
  /-- R105 -/
  | addiu (rt rs : Reg) (imm : Half)
  /-- R120 -/
  | mult (rs rt : Reg)
  /-- R121 -/
  | multu (rs rt : Reg)
  /-- R122 -/
  | div (rs rt : Reg)
  /-- R123 -/
  | divu (rs rt : Reg)
  /-- R130 -/
  | and (rd rs rt : Reg)
  /-- R131 -/
  | or (rd rs rt : Reg)
  /-- R132 -/
  | xor (rd rs rt : Reg)
  /-- R133 -/
  | nor (rd rs rt : Reg)
  /-- R134 -/
  | andi (rt rs : Reg) (imm : Half)
  /-- R135 -/
  | ori (rt rs : Reg) (imm : Half)
  /-- R136 -/
  | xori (rt rs : Reg) (imm : Half)
  /-- R140 -/
  | slt (rd rs rt : Reg)
  /-- R141 -/
  | slti (rt rs : Reg) (imm : Half)
  /-- R145 -/
  | sll (rd rt : Reg) (sa : BitVec 5)
  /-- R146 -/
  | srl (rd rt : Reg) (sa : BitVec 5)
  /-- R147 -/
  | sra (rd rt : Reg) (sa : BitVec 5)
  /-- R160 -/
  | mfhi (rd : Reg)
  /-- R161 -/
  | mflo (rd : Reg)
  /-- R162 -/
  | mthi (rs : Reg)
  /-- R163 -/
  | mtlo (rs : Reg)
  /-- R171: `LW rt, imm(rs)` -/
  | lw (rt : Reg) (imm : Half) (rs : Reg)
  /-- R172 -/
  | lh (rt : Reg) (imm : Half) (rs : Reg)
  /-- R173 -/
  | lb (rt : Reg) (imm : Half) (rs : Reg)
  /-- R174: `SW rt, imm(rs)` -/
  | sw (rt : Reg) (imm : Half) (rs : Reg)
  /-- R175 -/
  | sh (rt : Reg) (imm : Half) (rs : Reg)
  /-- R176 -/
  | sb (rt : Reg) (imm : Half) (rs : Reg)
  /-- R177 -/
  | lui (rt : Reg) (imm : Half)
  /-- R190 -/
  | j (target : BitVec 26)
  /-- R191 -/
  | jal (target : BitVec 26)
  /-- R192 -/
  | jr (rs : Reg)
  /-- R193: `JALR rd, rs` -/
  | jalr (rd rs : Reg)
  /-- R194 -/
  | beq (rs rt : Reg) (imm : Half)
  /-- R195 -/
  | bne (rs rt : Reg) (imm : Half)
  /-- R196 -/
  | blez (rs : Reg) (imm : Half)
  /-- R197 -/
  | bltz (rs : Reg) (imm : Half)
  /-- R198 -/
  | bgez (rs : Reg) (imm : Half)
  /-- R199 -/
  | bgtz (rs : Reg) (imm : Half)
  /-- R210 -/
  | syscall
  deriving DecidableEq, Repr

/-- What decoding a word gives (spec/30_encoding.md R64): an instruction with its fields, or the explicit
"unknown" variant, which keeps the word. -/
inductive Decoded where
  | known (i : Instr)
  | unknown (w : Word)
  deriving DecidableEq, Repr

end Sys2Proof
end

