-- ==== Sys2Proof/Decode.lean ====
section
/-!
DEFINITION. Decoding and encoding (spec/30_encoding.md).
`decode` is the two-level lookup of R65, total on every word (R64): a word that no row of R66 matches gives `Decoded.unknown`.
PRESUMED (log entry 12; unsafe): the opcode, funct and rt-selector numbers are the spec's decision D14, from general knowledge.
DESIGN CHOICE D12 of the spec (log entry 13): a field an instruction does not use is ignored.
-/

namespace Sys2Proof

/-! ## Fields (R61, R62, R63) -/

/-- `w[31:26]` -/
def fieldOpcode (w : Word) : BitVec 6 := w.extractLsb' 26 6

/-- `w[5:0]` -/
def fieldFunct (w : Word) : BitVec 6 := w.extractLsb' 0 6

/-- `w[10:6]` -/
def fieldShamt (w : Word) : BitVec 5 := w.extractLsb' 6 5

/-- `w[15:0]` -/
def fieldImm (w : Word) : Half := w.extractLsb' 0 16

/-- `w[25:0]` -/
def fieldTarget (w : Word) : BitVec 26 := w.extractLsb' 0 26

/-- The five bits of a register field as the register number they name (R72). -/
def regOfBits (b : BitVec 5) : Reg := b.toFin

/-- `w[25:21]` -/
def fieldRs (w : Word) : Reg := regOfBits (w.extractLsb' 21 5)

/-- `w[20:16]` -/
def fieldRt (w : Word) : Reg := regOfBits (w.extractLsb' 16 5)

/-- `w[15:11]` -/
def fieldRd (w : Word) : Reg := regOfBits (w.extractLsb' 11 5)

/-! ## Decode (R64, R65, R66) -/

/-- Opcode 0, the R-format class: the inner key is funct. -/
def decodeSpecial (w : Word) : Option Instr :=
  match fieldFunct w with
  | 0x00#6 => some (.sll (fieldRd w) (fieldRt w) (fieldShamt w))
  | 0x02#6 => some (.srl (fieldRd w) (fieldRt w) (fieldShamt w))
  | 0x03#6 => some (.sra (fieldRd w) (fieldRt w) (fieldShamt w))
  | 0x08#6 => some (.jr (fieldRs w))
  | 0x09#6 => some (.jalr (fieldRd w) (fieldRs w))
  | 0x0C#6 => some .syscall
  | 0x10#6 => some (.mfhi (fieldRd w))
  | 0x11#6 => some (.mthi (fieldRs w))
  | 0x12#6 => some (.mflo (fieldRd w))
  | 0x13#6 => some (.mtlo (fieldRs w))
  | 0x18#6 => some (.mult (fieldRs w) (fieldRt w))
  | 0x19#6 => some (.multu (fieldRs w) (fieldRt w))
  | 0x1A#6 => some (.div (fieldRs w) (fieldRt w))
  | 0x1B#6 => some (.divu (fieldRs w) (fieldRt w))
  | 0x20#6 => some (.add (fieldRd w) (fieldRs w) (fieldRt w))
  | 0x21#6 => some (.addu (fieldRd w) (fieldRs w) (fieldRt w))
  | 0x22#6 => some (.sub (fieldRd w) (fieldRs w) (fieldRt w))
  | 0x23#6 => some (.subu (fieldRd w) (fieldRs w) (fieldRt w))
  | 0x24#6 => some (.and (fieldRd w) (fieldRs w) (fieldRt w))
  | 0x25#6 => some (.or (fieldRd w) (fieldRs w) (fieldRt w))
  | 0x26#6 => some (.xor (fieldRd w) (fieldRs w) (fieldRt w))
  | 0x27#6 => some (.nor (fieldRd w) (fieldRs w) (fieldRt w))
  | 0x2A#6 => some (.slt (fieldRd w) (fieldRs w) (fieldRt w))
  | _ => none

/-- Opcode 1, the REGIMM class: the inner key is rt. -/
def decodeRegimm (w : Word) : Option Instr :=
  match w.extractLsb' 16 5 with
  | 0x00#5 => some (.bltz (fieldRs w) (fieldImm w))
  | 0x01#5 => some (.bgez (fieldRs w) (fieldImm w))
  | _ => none

/-- The outer key is opcode. -/
def decodeInstr (w : Word) : Option Instr :=
  match fieldOpcode w with
  | 0x00#6 => decodeSpecial w
  | 0x01#6 => decodeRegimm w
  | 0x02#6 => some (.j (fieldTarget w))
  | 0x03#6 => some (.jal (fieldTarget w))
  | 0x04#6 => some (.beq (fieldRs w) (fieldRt w) (fieldImm w))
  | 0x05#6 => some (.bne (fieldRs w) (fieldRt w) (fieldImm w))
  | 0x06#6 => some (.blez (fieldRs w) (fieldImm w))
  | 0x07#6 => some (.bgtz (fieldRs w) (fieldImm w))
  | 0x08#6 => some (.addi (fieldRt w) (fieldRs w) (fieldImm w))
  | 0x09#6 => some (.addiu (fieldRt w) (fieldRs w) (fieldImm w))
  | 0x0A#6 => some (.slti (fieldRt w) (fieldRs w) (fieldImm w))
  | 0x0C#6 => some (.andi (fieldRt w) (fieldRs w) (fieldImm w))
  | 0x0D#6 => some (.ori (fieldRt w) (fieldRs w) (fieldImm w))
  | 0x0E#6 => some (.xori (fieldRt w) (fieldRs w) (fieldImm w))
  | 0x0F#6 => some (.lui (fieldRt w) (fieldImm w))
  | 0x20#6 => some (.lb (fieldRt w) (fieldImm w) (fieldRs w))
  | 0x21#6 => some (.lh (fieldRt w) (fieldImm w) (fieldRs w))
  | 0x23#6 => some (.lw (fieldRt w) (fieldImm w) (fieldRs w))
  | 0x28#6 => some (.sb (fieldRt w) (fieldImm w) (fieldRs w))
  | 0x29#6 => some (.sh (fieldRt w) (fieldImm w) (fieldRs w))
  | 0x2B#6 => some (.sw (fieldRt w) (fieldImm w) (fieldRs w))
  | _ => none

/-- `decode(word)` of R64. -/
def decode (w : Word) : Decoded :=
  match decodeInstr w with
  | some i => .known i
  | none => .unknown w

/-! ## Bytes (spec/20_memory.md R44: the lowest address holds bits 7:0) -/

/-- The four bytes of a word, lowest address first. -/
def wordBytes (w : Word) : List Byte :=
  [w.extractLsb' 0 8, w.extractLsb' 8 8, w.extractLsb' 16 8, w.extractLsb' 24 8]

/-- The little-endian assembly of four bytes, `b0` at the lowest address. -/
def wordOfBytes (b0 b1 b2 b3 : Byte) : Word := b3 ++ b2 ++ b1 ++ b0

/-- Decode the first word of a byte string and give back the rest; fewer than four bytes hold no word (R60). -/
def decodeBytes : List Byte → Option (Decoded × List Byte)
  | b0 :: b1 :: b2 :: b3 :: rest => some (decode (wordOfBytes b0 b1 b2 b3), rest)
  | _ => none

/-- The host's question: what the decoder reads from an instruction whose bits are `w`, numbered as
spec/opcode_table.json numbers them; bits from `nbits` up are 0. -/
def decodeTableWord (nbits w : Nat) : Option Instr :=
  match decodeBytes (wordBytes (BitVec.ofNat 32 (w % 2 ^ nbits))) with
  | some (.known i, _) => some i
  | _ => none

/-! ## Encode (the same tables; unused fields are written as zeros, log entry 13) -/

/-- A register number as its five bits. -/
def bitsOfReg (r : Reg) : BitVec 5 := BitVec.ofFin r

/-- R61: opcode, rs, rt, rd, shamt, funct. -/
def packR (rs rt rd : Reg) (sa : BitVec 5) (funct : BitVec 6) : Word :=
  (0x00#6 ++ bitsOfReg rs ++ bitsOfReg rt ++ bitsOfReg rd ++ sa ++ funct : BitVec 32)

/-- R62: opcode, rs, rt, imm. -/
def packI (op : BitVec 6) (rs rt : Reg) (imm : Half) : Word :=
  (op ++ bitsOfReg rs ++ bitsOfReg rt ++ imm : BitVec 32)

/-- R63: opcode, target. -/
def packJ (op : BitVec 6) (target : BitVec 26) : Word :=
  (op ++ target : BitVec 32)

/-- The word of an instruction (R66). -/
def encode : Instr → Word
  | .add rd rs rt => packR rs rt rd 0#5 0x20#6
  | .addu rd rs rt => packR rs rt rd 0#5 0x21#6
  | .sub rd rs rt => packR rs rt rd 0#5 0x22#6
  | .subu rd rs rt => packR rs rt rd 0#5 0x23#6
  | .addi rt rs imm => packI 0x08#6 rs rt imm
  | .addiu rt rs imm => packI 0x09#6 rs rt imm
  | .mult rs rt => packR rs rt 0 0#5 0x18#6
  | .multu rs rt => packR rs rt 0 0#5 0x19#6
  | .div rs rt => packR rs rt 0 0#5 0x1A#6
  | .divu rs rt => packR rs rt 0 0#5 0x1B#6
  | .and rd rs rt => packR rs rt rd 0#5 0x24#6
  | .or rd rs rt => packR rs rt rd 0#5 0x25#6
  | .xor rd rs rt => packR rs rt rd 0#5 0x26#6
  | .nor rd rs rt => packR rs rt rd 0#5 0x27#6
  | .andi rt rs imm => packI 0x0C#6 rs rt imm
  | .ori rt rs imm => packI 0x0D#6 rs rt imm
  | .xori rt rs imm => packI 0x0E#6 rs rt imm
  | .slt rd rs rt => packR rs rt rd 0#5 0x2A#6
  | .slti rt rs imm => packI 0x0A#6 rs rt imm
  | .sll rd rt sa => packR 0 rt rd sa 0x00#6
  | .srl rd rt sa => packR 0 rt rd sa 0x02#6
  | .sra rd rt sa => packR 0 rt rd sa 0x03#6
  | .mfhi rd => packR 0 0 rd 0#5 0x10#6
  | .mflo rd => packR 0 0 rd 0#5 0x12#6
  | .mthi rs => packR rs 0 0 0#5 0x11#6
  | .mtlo rs => packR rs 0 0 0#5 0x13#6
  | .lw rt imm rs => packI 0x23#6 rs rt imm
  | .lh rt imm rs => packI 0x21#6 rs rt imm
  | .lb rt imm rs => packI 0x20#6 rs rt imm
  | .sw rt imm rs => packI 0x2B#6 rs rt imm
  | .sh rt imm rs => packI 0x29#6 rs rt imm
  | .sb rt imm rs => packI 0x28#6 rs rt imm
  | .lui rt imm => packI 0x0F#6 0 rt imm
  | .j target => packJ 0x02#6 target
  | .jal target => packJ 0x03#6 target
  | .jr rs => packR rs 0 0 0#5 0x08#6
  | .jalr rd rs => packR rs 0 rd 0#5 0x09#6
  | .beq rs rt imm => packI 0x04#6 rs rt imm
  | .bne rs rt imm => packI 0x05#6 rs rt imm
  | .blez rs imm => packI 0x06#6 rs 0 imm
  | .bltz rs imm => packI 0x01#6 rs 0 imm
  | .bgez rs imm => packI 0x01#6 rs 1 imm
  | .bgtz rs imm => packI 0x07#6 rs 0 imm
  | .syscall => packR 0 0 0 0#5 0x0C#6

/-! ## The opcode map (R66) -/

/-- The mask and match of an instruction's row of R66. -/
def opcodeRow : Instr → Word × Word
  | .sll .. => (0xFC00003F#32, 0x00000000#32)
  | .srl .. => (0xFC00003F#32, 0x00000002#32)
  | .sra .. => (0xFC00003F#32, 0x00000003#32)
  | .jr .. => (0xFC00003F#32, 0x00000008#32)
  | .jalr .. => (0xFC00003F#32, 0x00000009#32)
  | .syscall => (0xFC00003F#32, 0x0000000C#32)
  | .mfhi .. => (0xFC00003F#32, 0x00000010#32)
  | .mthi .. => (0xFC00003F#32, 0x00000011#32)
  | .mflo .. => (0xFC00003F#32, 0x00000012#32)
  | .mtlo .. => (0xFC00003F#32, 0x00000013#32)
  | .mult .. => (0xFC00003F#32, 0x00000018#32)
  | .multu .. => (0xFC00003F#32, 0x00000019#32)
  | .div .. => (0xFC00003F#32, 0x0000001A#32)
  | .divu .. => (0xFC00003F#32, 0x0000001B#32)
  | .add .. => (0xFC00003F#32, 0x00000020#32)
  | .addu .. => (0xFC00003F#32, 0x00000021#32)
  | .sub .. => (0xFC00003F#32, 0x00000022#32)
  | .subu .. => (0xFC00003F#32, 0x00000023#32)
  | .and .. => (0xFC00003F#32, 0x00000024#32)
  | .or .. => (0xFC00003F#32, 0x00000025#32)
  | .xor .. => (0xFC00003F#32, 0x00000026#32)
  | .nor .. => (0xFC00003F#32, 0x00000027#32)
  | .slt .. => (0xFC00003F#32, 0x0000002A#32)
  | .bltz .. => (0xFC1F0000#32, 0x04000000#32)
  | .bgez .. => (0xFC1F0000#32, 0x04010000#32)
  | .j .. => (0xFC000000#32, 0x08000000#32)
  | .jal .. => (0xFC000000#32, 0x0C000000#32)
  | .beq .. => (0xFC000000#32, 0x10000000#32)
  | .bne .. => (0xFC000000#32, 0x14000000#32)
  | .blez .. => (0xFC000000#32, 0x18000000#32)
  | .bgtz .. => (0xFC000000#32, 0x1C000000#32)
  | .addi .. => (0xFC000000#32, 0x20000000#32)
  | .addiu .. => (0xFC000000#32, 0x24000000#32)
  | .slti .. => (0xFC000000#32, 0x28000000#32)
  | .andi .. => (0xFC000000#32, 0x30000000#32)
  | .ori .. => (0xFC000000#32, 0x34000000#32)
  | .xori .. => (0xFC000000#32, 0x38000000#32)
  | .lui .. => (0xFC000000#32, 0x3C000000#32)
  | .lb .. => (0xFC000000#32, 0x80000000#32)
  | .lh .. => (0xFC000000#32, 0x84000000#32)
  | .lw .. => (0xFC000000#32, 0x8C000000#32)
  | .sb .. => (0xFC000000#32, 0xA0000000#32)
  | .sh .. => (0xFC000000#32, 0xA4000000#32)
  | .sw .. => (0xFC000000#32, 0xAC000000#32)

/-! ## Which bits of a word mean something (R65: every other bit may hold any value) -/

/-- The bits of an instruction's word that its opcode, its inner key and its operands occupy. -/
def usedBits : Instr → Word
  | .add .. | .addu .. | .sub .. | .subu .. | .and .. | .or .. | .xor .. | .nor .. | .slt .. => 0xFFFFF83F#32
  | .sll .. | .srl .. | .sra .. => 0xFC1FFFFF#32
  | .mult .. | .multu .. | .div .. | .divu .. => 0xFFFF003F#32
  | .mfhi .. | .mflo .. => 0xFC00F83F#32
  | .mthi .. | .mtlo .. | .jr .. => 0xFFE0003F#32
  | .jalr .. => 0xFFE0F83F#32
  | .syscall => 0xFC00003F#32
  | .addi .. | .addiu .. | .slti .. | .andi .. | .ori .. | .xori .. => 0xFFFFFFFF#32
  | .lw .. | .lh .. | .lb .. | .sw .. | .sh .. | .sb .. => 0xFFFFFFFF#32
  | .beq .. | .bne .. | .bltz .. | .bgez .. => 0xFFFFFFFF#32
  | .lui .. => 0xFC1FFFFF#32
  | .blez .. | .bgtz .. => 0xFFE0FFFF#32
  | .j .. | .jal .. => 0xFFFFFFFF#32

end Sys2Proof
end

