-- ==== Sys2Proof/Machine/Operands.lean ====
section
/-!
DEFINITION. The operand values of spec/30_encoding.md section 3 and the addresses of spec/45_load_store.md R170.
-/

namespace Sys2Proof.Machine

/-- `sext_32(imm)` (spec/00_scope.md R9). -/
def sextImm (imm : Half) : Word := imm.signExtend 32

/-- `zext_32(imm)` (R9). -/
def zextImm (imm : Half) : Word := imm.setWidth 32

/-- LUI's operand `imm || 0x0000` (spec/30_encoding.md R69). -/
def luiImm (imm : Half) : Word := imm ++ 0x0000#16

/-- `boff = sext_32(imm) << 2` (spec/30_encoding.md R70). -/
def branchOffset (imm : Half) : Word := sextImm imm <<< 2

/-- The address of the next instruction in sequence (spec/40_cycle.md R84), modulo 2^32 (spec/10_state.md R26). -/
def pcPlus4 (pc : Word) : Word := pc + 4#32

/-- A taken branch's target `pc + 4 + boff` (spec/40_cycle.md R84). -/
def branchTarget (pc : Word) (imm : Half) : Word := pcPlus4 pc + branchOffset imm

/-- `jtarget = (pc & 0xF0000000) | (zext_32(target) << 2)`, from the jump's own pc (spec/30_encoding.md R71). -/
def jumpTarget (pc : Word) (target : BitVec 26) : Word :=
  (pc &&& 0xF0000000#32) ||| (target.setWidth 32 <<< 2)

/-- The link value `pc + 8` (spec/46_control_transfer.md R191, R193). -/
def linkValue (pc : Word) : Word := pc + 8#32

/-- `ea = x[rs] + sext_32(imm)`, modulo 2^32 (spec/45_load_store.md R170). -/
def effAddr (base : Word) (imm : Half) : Word := base + sextImm imm

/-- `wa = ea & 0xFFFFFFFC`, the containing aligned word (R170). -/
def wordAddr (ea : Word) : Word := ea &&& 0xFFFFFFFC#32

/-- `k = ea[1:0]`, the byte lane (R170). -/
def byteLane (ea : Word) : Nat := (ea.extractLsb' 0 2).toNat

/-- The address is a multiple of 4: `ea[1:0] = 0`. -/
def wordAligned (ea : Word) : Bool := ea.extractLsb' 0 2 == 0#2

/-- The address is even: `ea[0] = 0`. -/
def halfAligned (ea : Word) : Bool := ea.extractLsb' 0 1 == 0#1

/-- `sext_32` of a halfword (R172). -/
def sextHalf (h : Half) : Word := h.signExtend 32

/-- `sext_32` of a byte (R173). -/
def sextByte (b : Byte) : Word := b.signExtend 32

/-- Byte lane `k` of a word (spec/45_load_store.md R178). -/
def byteOfWord (w : Word) (k : Nat) : Byte := (w >>> (8 * k)).extractLsb' 0 8

/-- The halfword at byte lane `k`, 0 or 2, of a word (R178). -/
def halfOfWord (w : Word) (k : Nat) : Half := (w >>> (8 * k)).extractLsb' 0 16

/-- A word with its byte lane `k` replaced (spec/45_load_store.md R179). -/
def insertByte (old : Word) (k : Nat) (b : Byte) : Word :=
  (old &&& ~~~(0x000000FF#32 <<< (8 * k))) ||| (b.setWidth 32 <<< (8 * k))

/-- A word with the halfword at byte lane `k`, 0 or 2, replaced (R179). -/
def insertHalf (old : Word) (k : Nat) (h : Half) : Word :=
  (old &&& ~~~(0x0000FFFF#32 <<< (8 * k))) ||| (h.setWidth 32 <<< (8 * k))

end Sys2Proof.Machine
end

