-- ==== Sys2Proof/Config.lean ====
section
/-!
DEFINITION. The parameters of spec/00_scope.md R6 as one plain structure, the example configuration of
spec/95_test_vectors.md section 0, and the free value the display text is (the other, Config.misalignedImage,
stands in Machine/HostPort.lean, since it is applied to a state).
-/

namespace Sys2Proof

/-- A memory region (spec/20_memory.md R41, R42): the named bytes at addresses `first` to `last` inclusive,
which the spec calls begin and end. -/
structure Region where
  name : String
  first : Word
  last : Word
  deriving DecidableEq, Repr

/-- The implementation parameters of spec/00_scope.md R6 that a model takes as arguments.
DESIGN CHOICE (log entry 1; safe): they stand in State, so a statement about every state covers every value of them. -/
structure Config where
  /-- `REGIONS` (spec/20_memory.md R42) -/
  regions : List Region
  /-- `TEXT_BASE`: the load base and the initial PC (spec/70_reset_and_hazards.md R250) -/
  textBase : Word
  /-- `R0_HARDWIRED` (spec/10_state.md R21) -/
  r0Hardwired : Bool
  /-- `DIV_OVERFLOW_FAULTS` (spec/42_multiply_divide.md R124) -/
  divOverflowFaults : Bool
  deriving DecidableEq, Repr

/-- The example configuration of spec/95_test_vectors.md section 0, with the two Booleans at R6's defaults.
DESIGN CHOICE (log entry 2; unsafe for a claim that rests on these regions or this base). -/
def Config.exampleConfig : Config where
  regions :=
    [⟨"low", 0x00000000#32, 0x00000FFF#32⟩,
     ⟨"text", 0x00400000#32, 0x00400FFF#32⟩,
     ⟨"data", 0x10010000#32, 0x10010FFF#32⟩]
  textBase := 0x00400000#32
  r0Hardwired := true
  divOverflowFaults := true

/-- The text `decode_for_display` produces for a decoded word: spec/60_exceptions.md R234 leaves it to a collaborator
("the exact text is not specified"), and spec/93_implementation_defined.md treats it as any value.
DESIGN CHOICE (log entry 18; safe): a free value, nothing constrains it. -/
opaque Config.displayText : Decoded → String

end Sys2Proof
end

