-- ==== Sys2Proof/WellFormed.lean ====
section
/-!
DEFINITION. What makes a configuration well formed (spec/20_memory.md R42; spec/70_reset_and_hazards.md R250).
An Instr needs no check of its own: each of its fields has exactly its encoding's width (spec/30_encoding.md R61 to R63),
so no ill-formed instruction can be written.
-/

namespace Sys2Proof

/-- R42 for one region: begin ≤ end, begin a multiple of 4, and end + 1 a multiple of 4 or end = 0xFFFFFFFF
(in both cases the low two bits of end are ones). -/
abbrev Region.wf (r : Region) : Prop :=
  r.first.toNat ≤ r.last.toNat ∧ r.first.toNat % 4 = 0 ∧ r.last.toNat % 4 = 3

/-- R41: "regions are non-overlapping". -/
abbrev Region.disjoint (r q : Region) : Prop :=
  r.last.toNat < q.first.toNat ∨ q.last.toNat < r.first.toNat

/-- R42 for the region list, and R250's "`load_base` must be a multiple of 4". -/
abbrev Config.wf (c : Config) : Prop :=
  (∀ r ∈ c.regions, r.wf) ∧ c.regions.Pairwise Region.disjoint ∧ c.textBase.toNat % 4 = 0

end Sys2Proof
end

