-- ==== Sys2Proof/Machine/State.lean ====
section
/-!
DEFINITION. The state of the core (spec/10_state.md, spec/20_memory.md R41, spec/60_exceptions.md R221), the faults and refusals,
and the state after reset (spec/10_state.md R34).
-/

namespace Sys2Proof.Machine

/-- One snapshot of the register state (spec/10_state.md R20, R24, R25): the general registers, HI, LO and PC. -/
structure Snapshot where
  gpr : Vector Word 32
  hi : Word
  lo : Word
  pc : Word
  deriving DecidableEq, Repr

/-- The bytes of all regions (spec/20_memory.md R41), as (address, byte) pairs with addresses strictly rising and
no zero byte listed: a byte that is not listed reads 0, the reset contents of R34. -/
abbrev Memory := List Host.Cell

/-- The canonical form of a memory: addresses rise strictly, each is a 32-bit address (R40), and no listed byte is
the 0 that an unlisted address reads as. -/
abbrev Memory.wf (m : Memory) : Prop :=
  m.Pairwise (fun c d => c.1 < d.1) ∧ ∀ c ∈ m, c.1 < 2 ^ 32 ∧ c.2 ≠ 0#8

/-- The two arithmetic faults of spec/60_exceptions.md R221. -/
inductive ArithmeticKind where
  | divideByZero
  | divideOverflow
  deriving DecidableEq, Repr

/-- The faults of spec/60_exceptions.md R221 with the information each records. A fault is a stop reason of the core:
the step that raises one answers a NEXT state in `Halted` (R222), because the spec gives that state whole; no step
answers `Host.Outcome.fault` (log entry 3). Safe: the core executes nothing after it until reset. -/
inductive Fault where
  /-- Raised by every word that decodes to `unknown` (R211). Safe. -/
  | unsupportedInstruction (pc word : Word)
  /-- Raised by DIV and DIVU with divisor 0 (R122, R123) and, with `DIV_OVERFLOW_FAULTS`, by DIV of -2^31 by -1 (R124). Safe. -/
  | arithmeticFault (kind : ArithmeticKind) (pc : Word)
  /-- Raised by LW, SW, LH and SH at a misaligned effective address, before the access (R170). Safe. -/
  | misalignedData (pc ea : Word)
  /-- Raised by the fetch at a pc whose bits 1:0 are not zero (R81). Safe. -/
  | misalignedFetch (pc : Word)
  deriving DecidableEq, Repr

/-- Why something has no answer in the model. -/
inductive Refusal where
  /-- Raised by an arm of `exec` whose instruction has no meaning yet; no arm is such an arm. Safe. -/
  | notModelled (mnemonic : String)
  /-- Raised by the host's `read_word` and `write_word` at an address that is not a multiple of 4 (spec/60_exceptions.md R232:
  "refused by this spec (no effect, no value)"), by no instruction and no step. Safe. -/
  | hostMisalignedAddress (addr : Word)
  /-- Raised by the host's `read_register` and `write_register` for an index outside 0 to 31 (R231: "refused (no effect, no value)"),
  by no instruction and no step. Safe. -/
  | hostRegisterIndex (index : Nat)
  deriving DecidableEq, Repr

/-- The stop reasons of spec/60_exceptions.md R221: the normal end, the host's stop, and the faults. -/
inductive StopReason where
  | syscall
  | hostStop
  | fault (f : Fault)
  deriving DecidableEq, Repr

/-- The run state of spec/10_state.md R29; the stop reason is there exactly when the state is `halted`. -/
inductive RunState where
  | ready
  | running
  | halted (reason : StopReason)
  deriving DecidableEq, Repr

/-- Everything the core holds (spec/10_state.md), with the parameters of spec/00_scope.md R6 beside it. -/
structure State where
  /-- the current snapshot: every read of a cycle (R10, R83) -/
  cur : Snapshot
  /-- the next snapshot: every register write of a cycle (R10, R31) -/
  nxt : Snapshot
  /-- the bytes of the regions (spec/20_memory.md R41) -/
  mem : Memory
  /-- the run state and its stop reason (R29) -/
  run : RunState
  /-- the instruction counter, unbounded (R30) -/
  count : Nat
  /-- THE MODEL'S OWN: the parameters (log entry 1); no step changes them -/
  cfg : Config
  deriving DecidableEq, Repr

/-- Every register, HI and LO zero, and the PC at `pc` (spec/10_state.md R34). -/
def Snapshot.initial (pc : Word) : Snapshot where
  gpr := Vector.replicate 32 0#32
  hi := 0#32
  lo := 0#32
  pc := pc

/-- `initialize(load_base)` with load_base = `TEXT_BASE` (spec/70_reset_and_hazards.md R250): the values of
spec/10_state.md R34 with no program image. -/
def State.initialize (c : Config) : State where
  cur := Snapshot.initial c.textBase
  nxt := Snapshot.initial c.textBase
  mem := []
  run := .ready
  count := 0
  cfg := c

/-- The machine right after reset, with nothing loaded, at the example configuration (log entries 2 and 19). -/
def State.reset : State := State.initialize Config.exampleConfig

end Sys2Proof.Machine
end

