-- ==== Sys2Proof/Machine/Ops.lean ====
section
/-!
DEFINITION. The named operations every instruction is written with: memory (spec/20_memory.md), registers (spec/40_cycle.md R86),
the start, the commit and the fault of a cycle (spec/40_cycle.md R80, R85; spec/60_exceptions.md R222).
-/

namespace Sys2Proof.Machine

/-! ## Bytes of memory -/

/-- The byte stored at an address; an unlisted byte is 0 (spec/10_state.md R34). -/
def Memory.read : Memory → Nat → Byte
  | [], _ => 0#8
  | (b, v) :: rest, a => if b = a then v else Memory.read rest a

/-- A cell in front of a memory, unless it holds the 0 that an unlisted byte reads as. -/
def Memory.cons (a : Nat) (v : Byte) (m : Memory) : Memory := if v = 0#8 then m else (a, v) :: m

/-- Store one byte, keeping the canonical form. -/
def Memory.write : Memory → Nat → Byte → Memory
  | [], a, v => Memory.cons a v []
  | (b, w) :: rest, a, v =>
    if a < b then Memory.cons a v ((b, w) :: rest)
    else if a = b then Memory.cons a v rest
    else (b, w) :: Memory.write rest a v

/-! ## Regions (spec/20_memory.md R41) -/

/-- The region contains the byte address. -/
def regionContains (r : Region) (a : Nat) : Bool := decide (r.first.toNat ≤ a ∧ a ≤ r.last.toNat)

/-- The byte address is mapped: some region of `REGIONS` contains it. -/
def mappedIn (c : Config) (a : Nat) : Bool := c.regions.any (fun r => regionContains r a)

/-- Address `addr + i`, as the key of a memory cell. -/
def byteKey (addr : Word) (i : Nat) : Nat := (addr + BitVec.ofNat 32 i).toNat

/-! ## The word primitives (spec/20_memory.md R45, R46; called with multiples of 4 only, R47) -/

/-- `read32(addr)`: the little-endian word, or 0 when no region contains `addr`. -/
def read32 (s : State) (addr : Word) : Word :=
  if mappedIn s.cfg addr.toNat then
    wordOfBytes (s.mem.read (byteKey addr 0)) (s.mem.read (byteKey addr 1))
      (s.mem.read (byteKey addr 2)) (s.mem.read (byteKey addr 3))
  else 0x00000000#32

/-- The memory with the four bytes of `v` stored at `addr`, the lowest address holding bits 7:0. -/
def storeWord (m : Memory) (addr v : Word) : Memory :=
  (((m.write (byteKey addr 0) (v.extractLsb' 0 8)).write (byteKey addr 1) (v.extractLsb' 8 8)).write
    (byteKey addr 2) (v.extractLsb' 16 8)).write (byteKey addr 3) (v.extractLsb' 24 8)

/-- `write32(addr, v)`: no effect when no region contains `addr`. -/
def write32 (addr v : Word) (s : State) : State :=
  if mappedIn s.cfg addr.toNat then { s with mem := storeWord s.mem addr v } else s

/-! ## Sub-word access through the word primitives (spec/45_load_store.md R178, R179) -/

/-- `MemRead(ea, 1)` -/
def memReadByte (s : State) (ea : Word) : Byte := byteOfWord (read32 s (wordAddr ea)) (byteLane ea)

/-- `MemRead(ea, 2)` -/
def memReadHalf (s : State) (ea : Word) : Half := halfOfWord (read32 s (wordAddr ea)) (byteLane ea)

/-- `MemWrite(ea, 1, b)`: a read-modify-write of the containing word. -/
def memWriteByte (ea : Word) (b : Byte) (s : State) : State :=
  write32 (wordAddr ea) (insertByte (read32 s (wordAddr ea)) (byteLane ea) b) s

/-- `MemWrite(ea, 2, h)` -/
def memWriteHalf (ea : Word) (h : Half) (s : State) : State :=
  write32 (wordAddr ea) (insertHalf (read32 s (wordAddr ea)) (byteLane ea) h) s

/-! ## Registers (spec/00_scope.md R10; spec/40_cycle.md R86) -/

/-- Register `i` is the one that always reads 0 and discards writes. -/
def hardwiredZero (c : Config) (i : Reg) : Bool := decide (i = 0) && c.r0Hardwired

/-- `x[i]`: the current snapshot's register, 0 for a hard-wired register 0. -/
def State.x (s : State) (i : Reg) : Word := if hardwiredZero s.cfg i then 0#32 else s.cur.gpr[i]

/-- HI of the current snapshot. -/
def State.hi (s : State) : Word := s.cur.hi

/-- LO of the current snapshot. -/
def State.lo (s : State) : Word := s.cur.lo

/-- PC of the current snapshot. -/
def State.pc (s : State) : Word := s.cur.pc

/-- `x[i] <- v`: written to the next snapshot, discarded for a hard-wired register 0. -/
def setX (i : Reg) (v : Word) (s : State) : State :=
  if hardwiredZero s.cfg i then s else { s with nxt := { s.nxt with gpr := s.nxt.gpr.set i v } }

/-- `hi <- v` in the next snapshot. -/
def setHi (v : Word) (s : State) : State := { s with nxt := { s.nxt with hi := v } }

/-- `lo <- v` in the next snapshot. -/
def setLo (v : Word) (s : State) : State := { s with nxt := { s.nxt with lo := v } }

/-- `pc <- target` in the next snapshot. -/
def setPc (target : Word) (s : State) : State := { s with nxt := { s.nxt with pc := target } }

/-! ## The cycle (spec/40_cycle.md R80) -/

/-- `next <- current` (spec/10_state.md R31) and `next.pc <- pc + 4` (R84). -/
def beginCycle (s : State) : State := { s with nxt := { s.cur with pc := pcPlus4 s.cur.pc } }

/-- The run state after a commit (R85). -/
def runAfterCommit (haltRequest : Bool) : RunState := if haltRequest then .halted .syscall else .running

/-- Commit (R85): next becomes current all at once, the counter goes up by 1, the run state follows `halt_request`. -/
def commit (haltRequest : Bool) (s : State) : State :=
  { s with cur := s.nxt, count := s.count + 1, run := runAfterCommit haltRequest }

/-- The end of a cycle that raised nothing and did not ask to halt. -/
def retire (s : State) : Host.Outcome State Fault Refusal := .next (commit false s)

/-- TAKING A FAULT, `raise <Fault>(info)` (spec/00_scope.md R12, spec/60_exceptions.md R222): nothing the cycle wrote to the
next snapshot is committed (next is current again, as spec/10_state.md R31 says it is between cycles), the counter does not
increase, and the run state is `Halted` with the fault as its stop reason. There is no handler and no return (R220, R226). -/
def raise (f : Fault) (s : State) : Host.Outcome State Fault Refusal :=
  .next { s with nxt := s.cur, run := .halted (.fault f) }

/-! ## Run state (spec/10_state.md R29) -/

/-- The run state is `Halted`. -/
def isHalted : RunState → Bool
  | .halted _ => true
  | _ => false

/-- The source's run flag: true exactly when the run state is not `Halted`. -/
def runFlag (r : RunState) : Bool := !isHalted r

/-- The stop reason: none unless the run state is `Halted`. -/
def stopReason : RunState → Option StopReason
  | .halted r => some r
  | _ => none

end Sys2Proof.Machine
end

