-- ==== Sys2Proof/Machine/Arithmetic.lean ====
section
/-!
DEFINITION. The arithmetic and arithmetic-immediate instructions (spec/41_arithmetic.md R100 to R105).
-/

namespace Sys2Proof.Machine

/-- ADD: `x[rd] <- x[rs] + x[rt]` modulo 2^32; signed overflow is not detected (R100). -/
def execAdd (rd rs rt : Reg) (s : State) : Host.Outcome State Fault Refusal :=
  retire (setX rd (s.x rs + s.x rt) (beginCycle s))

/-- ADDU: the same result as ADD (R101). -/
def execAddu (rd rs rt : Reg) (s : State) : Host.Outcome State Fault Refusal :=
  retire (setX rd (s.x rs + s.x rt) (beginCycle s))

/-- SUB: `x[rd] <- x[rs] - x[rt]` modulo 2^32; signed overflow is not detected (R102). -/
def execSub (rd rs rt : Reg) (s : State) : Host.Outcome State Fault Refusal :=
  retire (setX rd (s.x rs - s.x rt) (beginCycle s))

/-- SUBU: the same result as SUB (R103). -/
def execSubu (rd rs rt : Reg) (s : State) : Host.Outcome State Fault Refusal :=
  retire (setX rd (s.x rs - s.x rt) (beginCycle s))

/-- ADDI: `x[rt] <- x[rs] + sext_32(imm)` modulo 2^32; signed overflow is not detected (R104). -/
def execAddi (rt rs : Reg) (imm : Half) (s : State) : Host.Outcome State Fault Refusal :=
  retire (setX rt (s.x rs + sextImm imm) (beginCycle s))

/-- ADDIU: the same result as ADDI; the immediate is sign-extended (R105). -/
def execAddiu (rt rs : Reg) (imm : Half) (s : State) : Host.Outcome State Fault Refusal :=
  retire (setX rt (s.x rs + sextImm imm) (beginCycle s))

end Sys2Proof.Machine
end

