-- ==== Sys2Proof/Machine/Flags.lean ====
section
/-!
DEFINITION. The core has no flags, condition codes or predicates (spec/10_state.md R27): "branches compare general registers directly".
This file holds those comparisons, and the 0-or-1 results of the compare instructions.
-/

namespace Sys2Proof.Machine

/-- `signed(a) < signed(b)` (spec/00_scope.md R8). -/
def signedLess (a b : Word) : Bool := decide (a.toInt < b.toInt)

/-- The result of SLT and SLTI (spec/43_logical_compare_shift.md R140, R141). -/
def setOnLess (a b : Word) : Word := if signedLess a b then 0x00000001#32 else 0x00000000#32

/-- BEQ's condition (spec/46_control_transfer.md R194): the 32-bit values are equal. -/
def condEq (a b : Word) : Bool := decide (a = b)

/-- BNE's condition (R195). -/
def condNe (a b : Word) : Bool := decide (a ≠ b)

/-- BLEZ's condition (R196). -/
def condLez (a : Word) : Bool := decide (a.toInt ≤ 0)

/-- BLTZ's condition (R197). -/
def condLtz (a : Word) : Bool := decide (a.toInt < 0)

/-- BGEZ's condition (R198). -/
def condGez (a : Word) : Bool := decide (0 ≤ a.toInt)

/-- BGTZ's condition (R199). -/
def condGtz (a : Word) : Bool := decide (0 < a.toInt)

end Sys2Proof.Machine
end

