-- ==== Sys2Proof/Machine/Control.lean ====
section
/-!
DEFINITION. The jump and branch instructions (spec/46_control_transfer.md R190 to R201). No delay slot: the target is fetched next.
-/

namespace Sys2Proof.Machine

/-! ## Jumps -/

/-- J: the high 4 bits come from the pc of the J itself (R190). -/
def execJ (target : BitVec 26) (s : State) : Host.Outcome State Fault Refusal :=
  retire (setPc (jumpTarget s.pc target) (beginCycle s))

/-- JAL: the link in register 31 is `pc + 8` (R191). -/
def execJal (target : BitVec 26) (s : State) : Host.Outcome State Fault Refusal :=
  retire (setPc (jumpTarget s.pc target) (setX 31 (linkValue s.pc) (beginCycle s)))

/-- JR: any 32-bit target is accepted (R192, R201). -/
def execJr (rs : Reg) (s : State) : Host.Outcome State Fault Refusal :=
  retire (setPc (s.x rs) (beginCycle s))

/-- JALR: the target is the current `x[rs]`, also when rd = rs (R193). -/
def execJalr (rd rs : Reg) (s : State) : Host.Outcome State Fault Refusal :=
  retire (setPc (s.x rs) (setX rd (linkValue s.pc) (beginCycle s)))

/-! ## Conditional branches -/

/-- A branch: to `pc + 4 + boff` when taken, else the next pc stays `pc + 4` (spec/40_cycle.md R84). -/
def branchIf (taken : Bool) (imm : Half) (s : State) : Host.Outcome State Fault Refusal :=
  if taken then retire (setPc (branchTarget s.pc imm) (beginCycle s)) else retire (beginCycle s)

/-- BEQ (R194). -/
def execBeq (rs rt : Reg) (imm : Half) (s : State) : Host.Outcome State Fault Refusal :=
  branchIf (condEq (s.x rs) (s.x rt)) imm s

/-- BNE (R195). -/
def execBne (rs rt : Reg) (imm : Half) (s : State) : Host.Outcome State Fault Refusal :=
  branchIf (condNe (s.x rs) (s.x rt)) imm s

/-- BLEZ (R196). -/
def execBlez (rs : Reg) (imm : Half) (s : State) : Host.Outcome State Fault Refusal :=
  branchIf (condLez (s.x rs)) imm s

/-- BLTZ (R197). -/
def execBltz (rs : Reg) (imm : Half) (s : State) : Host.Outcome State Fault Refusal :=
  branchIf (condLtz (s.x rs)) imm s

/-- BGEZ (R198). -/
def execBgez (rs : Reg) (imm : Half) (s : State) : Host.Outcome State Fault Refusal :=
  branchIf (condGez (s.x rs)) imm s

/-- BGTZ (R199). -/
def execBgtz (rs : Reg) (imm : Half) (s : State) : Host.Outcome State Fault Refusal :=
  branchIf (condGtz (s.x rs)) imm s

end Sys2Proof.Machine
end

