-- ==== Sys2Proof/Machine/HiLo.lean ====
section
/-!
DEFINITION. The HI/LO move instructions (spec/44_hilo_move.md R160 to R163).
PRESUMED (log entry 14; unsafe): the register roles are the spec's decision D13, from general knowledge.
-/

namespace Sys2Proof.Machine

/-- MFHI: `x[rd] <- hi` (R160). -/
def execMfhi (rd : Reg) (s : State) : Host.Outcome State Fault Refusal :=
  retire (setX rd s.hi (beginCycle s))

/-- MFLO: `x[rd] <- lo` (R161). -/
def execMflo (rd : Reg) (s : State) : Host.Outcome State Fault Refusal :=
  retire (setX rd s.lo (beginCycle s))

/-- MTHI: `hi <- x[rs]` (R162). -/
def execMthi (rs : Reg) (s : State) : Host.Outcome State Fault Refusal :=
  retire (setHi (s.x rs) (beginCycle s))

/-- MTLO: `lo <- x[rs]` (R163). -/
def execMtlo (rs : Reg) (s : State) : Host.Outcome State Fault Refusal :=
  retire (setLo (s.x rs) (beginCycle s))

end Sys2Proof.Machine
end

