-- ==== Sys2Proof/Machine/LoadStore.lean ====
section
/-!
DEFINITION. The load, store and load-immediate instructions (spec/45_load_store.md R170 to R179).
The misalignment faults are the spec's decision D4 (log entry 7; safe): they precede any access.
-/

namespace Sys2Proof.Machine

/-- The effective address of a load or store (R170). -/
def eaOf (rs : Reg) (imm : Half) (s : State) : Word := effAddr (s.x rs) imm

/-- LW (R171). -/
def execLw (rt : Reg) (imm : Half) (rs : Reg) (s : State) : Host.Outcome State Fault Refusal :=
  if wordAligned (eaOf rs imm s) then retire (setX rt (read32 s (eaOf rs imm s)) (beginCycle s))
  else raise (.misalignedData s.pc (eaOf rs imm s)) s

/-- LH (R172). -/
def execLh (rt : Reg) (imm : Half) (rs : Reg) (s : State) : Host.Outcome State Fault Refusal :=
  if halfAligned (eaOf rs imm s) then
    retire (setX rt (sextHalf (memReadHalf s (eaOf rs imm s))) (beginCycle s))
  else raise (.misalignedData s.pc (eaOf rs imm s)) s

/-- LB: a byte is always aligned (R173). -/
def execLb (rt : Reg) (imm : Half) (rs : Reg) (s : State) : Host.Outcome State Fault Refusal :=
  retire (setX rt (sextByte (memReadByte s (eaOf rs imm s))) (beginCycle s))

/-- SW (R174). -/
def execSw (rt : Reg) (imm : Half) (rs : Reg) (s : State) : Host.Outcome State Fault Refusal :=
  if wordAligned (eaOf rs imm s) then retire (write32 (eaOf rs imm s) (s.x rt) (beginCycle s))
  else raise (.misalignedData s.pc (eaOf rs imm s)) s

/-- SH: only `x[rt][15:0]` is written (R175). -/
def execSh (rt : Reg) (imm : Half) (rs : Reg) (s : State) : Host.Outcome State Fault Refusal :=
  if halfAligned (eaOf rs imm s) then
    retire (memWriteHalf (eaOf rs imm s) ((s.x rt).extractLsb' 0 16) (beginCycle s))
  else raise (.misalignedData s.pc (eaOf rs imm s)) s

/-- SB: only `x[rt][7:0]` is written (R176). -/
def execSb (rt : Reg) (imm : Half) (rs : Reg) (s : State) : Host.Outcome State Fault Refusal :=
  retire (memWriteByte (eaOf rs imm s) ((s.x rt).extractLsb' 0 8) (beginCycle s))

/-- LUI: `x[rt] <- imm || 0x0000`; no memory is touched (R177). -/
def execLui (rt : Reg) (imm : Half) (s : State) : Host.Outcome State Fault Refusal :=
  retire (setX rt (luiImm imm) (beginCycle s))

end Sys2Proof.Machine
end

