-- ==== Sys2Proof/Machine/Logical.lean ====
section
/-!
DEFINITION. The logical, compare and shift instructions (spec/43_logical_compare_shift.md R130 to R147).
PRESUMED (log entry 14; unsafe): the register roles are the spec's decision D13, from general knowledge.
-/

namespace Sys2Proof.Machine

/-! ## Logical -/

/-- AND: `x[rd] <- ``x[rs] & x[rt]` (R130). -/
def execAnd (rd rs rt : Reg) (s : State) : Host.Outcome State Fault Refusal :=
  retire (setX rd (s.x rs &&& s.x rt) (beginCycle s))

/-- OR: `x[rd] <- ``x[rs] | x[rt]` (R131). -/
def execOr (rd rs rt : Reg) (s : State) : Host.Outcome State Fault Refusal :=
  retire (setX rd (s.x rs ||| s.x rt) (beginCycle s))

/-- XOR: `x[rd] <- ``x[rs] ^ x[rt]` (R132). -/
def execXor (rd rs rt : Reg) (s : State) : Host.Outcome State Fault Refusal :=
  retire (setX rd (s.x rs ^^^ s.x rt) (beginCycle s))

/-- NOR: `x[rd] <- ``~(x[rs] | x[rt])` (R133). -/
def execNor (rd rs rt : Reg) (s : State) : Host.Outcome State Fault Refusal :=
  retire (setX rd (~~~(s.x rs ||| s.x rt)) (beginCycle s))

/-- ANDI: `x[rt] <- x[rs] & zext_32(imm)` (R134). -/
def execAndi (rt rs : Reg) (imm : Half) (s : State) : Host.Outcome State Fault Refusal :=
  retire (setX rt (s.x rs &&& zextImm imm) (beginCycle s))

/-- ORI: `x[rt] <- x[rs] | zext_32(imm)` (R135). -/
def execOri (rt rs : Reg) (imm : Half) (s : State) : Host.Outcome State Fault Refusal :=
  retire (setX rt (s.x rs ||| zextImm imm) (beginCycle s))

/-- XORI: `x[rt] <- x[rs] ^ zext_32(imm)` (R136). -/
def execXori (rt rs : Reg) (imm : Half) (s : State) : Host.Outcome State Fault Refusal :=
  retire (setX rt (s.x rs ^^^ zextImm imm) (beginCycle s))

/-! ## Compare -/

/-- SLT (R140). -/
def execSlt (rd rs rt : Reg) (s : State) : Host.Outcome State Fault Refusal :=
  retire (setX rd (setOnLess (s.x rs) (s.x rt)) (beginCycle s))

/-- SLTI: the immediate is sign-extended (R141). -/
def execSlti (rt rs : Reg) (imm : Half) (s : State) : Host.Outcome State Fault Refusal :=
  retire (setX rt (setOnLess (s.x rs) (sextImm imm)) (beginCycle s))

/-! ## Shift: x[rt] is shifted, by 0 to 31 (spec/30_encoding.md R72) -/

/-- SLL: `x[rd] <- x[rt] << shamt`, zeros shifted in (R145). -/
def execSll (rd rt : Reg) (sa : BitVec 5) (s : State) : Host.Outcome State Fault Refusal :=
  retire (setX rd (s.x rt <<< sa.toNat) (beginCycle s))

/-- SRL: `x[rd] <- x[rt] >> shamt`, zeros shifted in (R146). -/
def execSrl (rd rt : Reg) (sa : BitVec 5) (s : State) : Host.Outcome State Fault Refusal :=
  retire (setX rd (s.x rt >>> sa.toNat) (beginCycle s))

/-- SRA: `x[rd] <- x[rt] >>s shamt`, copies of bit 31 shifted in (R147). -/
def execSra (rd rt : Reg) (sa : BitVec 5) (s : State) : Host.Outcome State Fault Refusal :=
  retire (setX rd ((s.x rt).sshiftRight sa.toNat) (beginCycle s))

end Sys2Proof.Machine
end

