-- ==== Sys2Proof/Machine/MulDiv.lean ====
section
/-!
DEFINITION. The multiply and divide instructions (spec/42_multiply_divide.md R120 to R125).
PRESUMED (log entry 10; unsafe): signedness, truncation and the remainder's sign are the spec's decision D10, from general knowledge.
-/

namespace Sys2Proof.Machine

/-! ## The arithmetic (exact integers, narrowed at the end) -/

/-- `high32` -/
def high32 (p : DWord) : Word := p.extractLsb' 32 32

/-- `low32` -/
def low32 (p : DWord) : Word := p.extractLsb' 0 32

/-- `signed(a) * signed(b)` modulo 2^64 (R120). -/
def signedProduct (a b : Word) : DWord := BitVec.ofInt 64 (a.toInt * b.toInt)

/-- `unsigned(a) * unsigned(b)` (R121). -/
def unsignedProduct (a b : Word) : DWord := BitVec.ofNat 64 (a.toNat * b.toNat)

/-- `trunc(n / d)`, rounded toward zero (R122). -/
def signedQuotient (a b : Word) : Int := a.toInt.tdiv b.toInt

/-- `n - q * d` (R122). -/
def signedRemainder (a b : Word) : Int := a.toInt - signedQuotient a b * b.toInt

/-- `floor(n / d)` (R123). -/
def unsignedQuotient (a b : Word) : Nat := a.toNat / b.toNat

/-- `n - floor(n / d) * d` (R123). -/
def unsignedRemainder (a b : Word) : Nat := a.toNat - unsignedQuotient a b * b.toNat

/-- The operands whose signed quotient 2^31 does not fit (R124). -/
def divOverflows (a b : Word) : Bool := decide (a = 0x80000000#32 ∧ b = 0xFFFFFFFF#32)

/-- Write both HI and LO and end the cycle: the only register effect of this family (spec/10_state.md R24). -/
def retireHiLo (hi lo : Word) (s : State) : Host.Outcome State Fault Refusal :=
  retire (setLo lo (setHi hi (beginCycle s)))

/-! ## The instructions -/

/-- MULT (R120). -/
def execMult (rs rt : Reg) (s : State) : Host.Outcome State Fault Refusal :=
  retireHiLo (high32 (signedProduct (s.x rs) (s.x rt))) (low32 (signedProduct (s.x rs) (s.x rt))) s

/-- MULTU (R121). -/
def execMultu (rs rt : Reg) (s : State) : Host.Outcome State Fault Refusal :=
  retireHiLo (high32 (unsignedProduct (s.x rs) (s.x rt))) (low32 (unsignedProduct (s.x rs) (s.x rt))) s

/-- DIV (R122, R124): the zero divisor is tested first, then the overflow case, which faults or writes by
`DIV_OVERFLOW_FAULTS`. -/
def execDiv (rs rt : Reg) (s : State) : Host.Outcome State Fault Refusal :=
  if s.x rt = 0x00000000#32 then raise (.arithmeticFault .divideByZero s.pc) s
  else if divOverflows (s.x rs) (s.x rt) then
    if s.cfg.divOverflowFaults then raise (.arithmeticFault .divideOverflow s.pc) s
    else retireHiLo 0x00000000#32 0x80000000#32 s
  else
    retireHiLo (BitVec.ofInt 32 (signedRemainder (s.x rs) (s.x rt)))
      (BitVec.ofInt 32 (signedQuotient (s.x rs) (s.x rt))) s

/-- DIVU (R123): no overflow case. -/
def execDivu (rs rt : Reg) (s : State) : Host.Outcome State Fault Refusal :=
  if s.x rt = 0x00000000#32 then raise (.arithmeticFault .divideByZero s.pc) s
  else
    retireHiLo (BitVec.ofNat 32 (unsignedRemainder (s.x rs) (s.x rt)))
      (BitVec.ofNat 32 (unsignedQuotient (s.x rs) (s.x rt))) s

end Sys2Proof.Machine
end

