-- ==== Sys2Proof/Machine/System.lean ====
section
/-!
DEFINITION. The system instruction (spec/47_system.md R210). Unsupported words (R211) are Machine/Fetch.lean's.
-/

namespace Sys2Proof.Machine

/-- SYSCALL (R210): `halt_request <- true`; the cycle commits with `pc + 4` and the run state becomes `Halted(Syscall)`
(spec/40_cycle.md R85). It is not a trap: it reads no register and transfers control nowhere. -/
def execSyscall (s : State) : Host.Outcome State Fault Refusal := .next (commit true (beginCycle s))

end Sys2Proof.Machine
end

