-- ==== Sys2Proof/Machine/Fetch.lean ====
section
/-!
DEFINITION. Fetching and decoding the next instruction (spec/40_cycle.md R80 to R82).
-/

namespace Sys2Proof.Machine

/-- Fetch and decode (R80, R81, R82): a pc whose bits 1:0 are not zero raises `MisalignedFetch` before any read; the word is
`read32(pc)`; a word that decodes to unknown raises `UnsupportedInstruction` (spec/47_system.md R211). The order is R224's. -/
def fetchDecode (s : State) : Except Fault Instr :=
  if wordAligned s.pc then
    match decode (read32 s s.pc) with
    | .known i => .ok i
    | .unknown w => .error (.unsupportedInstruction s.pc w)
  else .error (.misalignedFetch s.pc)

/-- Store a word where the next fetch reads it: the host's `write_word(pc, w)` (spec/60_exceptions.md R232). -/
def storeAtPc (w : Word) (s : State) : State := write32 s.pc w s

end Sys2Proof.Machine
end

