-- ==== Sys2Proof/Machine/Step.lean ====
section
/-!
DEFINITION. One cycle of the core (spec/40_cycle.md R80), and the placing of the next instruction.
-/

namespace Sys2Proof.Machine

/-- `step()` of R80: nothing happens in `Halted`; else fetch, decode, execute and commit, or take the fault that one of them raises. -/
def step (s : State) : Host.Outcome State Fault Refusal :=
  if isHalted s.run then .next s
  else match fetchDecode s with
    | .ok i => exec i s
    | .error f => raise f s

/-- The state with the instruction whose bits are `w`, its bits from `nbits` up zero, stored at the pc, where the next step
fetches it. A program comes to run in no other way than by a store at its addresses: by the host's `reset(image)` or
`write_word`, or by an instruction (log entry 19). At a pc that no region contains nothing can be stored. -/
def State.withFetchWord (s : State) (nbits w : Nat) : State := storeAtPc (BitVec.ofNat 32 (w % 2 ^ nbits)) s

end Sys2Proof.Machine
end

