-- ==== Sys2Proof/Machine/HostPort.lean ====
section
/-!
DEFINITION. What the host may do between cycles (spec/60_exceptions.md R230 to R235; spec/70_reset_and_hazards.md R250, R251).
An operation the spec refuses ("no effect, no value") answers a Refusal. Between cycles next equals current (spec/10_state.md R31),
so a host write of a register goes to both snapshots (log entry 5).
-/

namespace Sys2Proof

/-- What `reset(image)` leaves in memory when `TEXT_BASE` is no multiple of 4 and the image is not empty, as (address, word) pairs stored
over zeros: `write32` is undefined at a misaligned address (spec/20_memory.md R47), so it may be any contents of the regions.
DESIGN CHOICE (log entry 26; safe): a free value, nothing constrains it. -/
opaque Config.misalignedImage : Machine.State → List Word → List (Word × Word)

end Sys2Proof

namespace Sys2Proof.Machine

/-! ## Initialize and reset -/

/-- `initialize(load_base)` with load_base = `TEXT_BASE` (R250): allowed in every run state, loads no program. -/
def hostInitialize (s : State) : State := State.initialize s.cfg

/-- `write32(base + 4*k, w_k)` for the image's words in order (R251); a word outside every region is dropped. -/
def loadImage : Word → List Word → State → State
  | _, [], s => s
  | base, w :: ws, s => loadImage (base + 4#32) ws (write32 base w s)

/-- These words stored at the containing words of these addresses, in order. -/
def storeWords : List (Word × Word) → State → State
  | [], s => s
  | (a, v) :: rest, s => storeWords rest (write32 (wordAddr a) v s)

/-- `reset(program_image)` (R251): everything `initialize` does, in every run state and at every `TEXT_BASE`, and then the image's words.
At a `TEXT_BASE` that is no multiple of 4 an empty image leaves nothing to write; of the words of any other image only what memory holds
afterwards is open (spec/20_memory.md R47), and it is a free value (log entry 26). There the first fetch faults (R250). -/
def hostReset (image : List Word) (s : State) : State :=
  if wordAligned s.cfg.textBase then loadImage s.cfg.textBase image (hostInitialize s)
  else if image.isEmpty then hostInitialize s
  else storeWords (Config.misalignedImage s image) (hostInitialize s)

/-! ## Running (R230): each returns the state and the number of cycles that committed during the call -/

/-- `run(n)`: up to n steps, stopping early at `Halted`. `step()` is `run(1)`. -/
def hostRun : Nat → State → Host.Outcome (State × Nat) Fault Refusal
  | 0, s => .next (s, 0)
  | n + 1, s =>
    if isHalted s.run then .next (s, 0)
    else match step s with
      | .next t =>
        match hostRun n t with
        | .next (u, k) => .next (u, k + (t.count - s.count))
        | .fault f => .fault f
        | .refused r => .refused r
      | .fault f => .fault f
      | .refused r => .refused r

/-- `step()`. -/
def hostStep (s : State) : Host.Outcome (State × Nat) Fault Refusal := hostRun 1 s

/-- `run_to_halt()` returns with state `t` and count `k`. It does not return for a program that never halts (R223, R230), so it is
a relation and not a function (log entry 22). -/
def HostRunsToHalt (s t : State) (k : Nat) : Prop :=
  ∃ n, hostRun n s = .next (t, k) ∧ isHalted t.run = true

/-- A run ends normally exactly when the run state is `Halted` with stop reason `Syscall` (R223). -/
def endedNormally (s : State) : Bool := decide (s.run = .halted .syscall)

/-! ## Register access (R231): there is no `write_pc` -/

/-- `read_register(i)` -/
def hostReadRegister (i : Nat) (s : State) : Except Refusal Word :=
  if h : i < 32 then .ok (s.x ⟨i, h⟩) else .error (.hostRegisterIndex i)

/-- Both snapshots take the current one's value: nothing is pending between cycles. -/
def withBoth (c : Snapshot) (s : State) : State := { s with cur := c, nxt := c }

/-- `write_register(i, value)`: discarded for a hard-wired register 0. -/
def hostWriteRegister (i : Nat) (v : Word) (s : State) : Except Refusal State :=
  if h : i < 32 then
    if hardwiredZero s.cfg ⟨i, h⟩ then .ok s
    else .ok (withBoth { s.cur with gpr := s.cur.gpr.set i v } s)
  else .error (.hostRegisterIndex i)

/-- `read_hi` -/
def hostReadHi (s : State) : Word := s.hi

/-- `read_lo` -/
def hostReadLo (s : State) : Word := s.lo

/-- `read_pc` -/
def hostReadPc (s : State) : Word := s.pc

/-- `write_hi` -/
def hostWriteHi (v : Word) (s : State) : State := withBoth { s.cur with hi := v } s

/-- `write_lo` -/
def hostWriteLo (v : Word) (s : State) : State := withBoth { s.cur with lo := v } s

/-! ## Memory access (R232): a misaligned address is refused -/

/-- `read_word(addr)` -/
def hostReadWord (addr : Word) (s : State) : Except Refusal Word :=
  if wordAligned addr then .ok (read32 s addr) else .error (.hostMisalignedAddress addr)

/-- `write_word(addr, value)` -/
def hostWriteWord (addr v : Word) (s : State) : Except Refusal State :=
  if wordAligned addr then .ok (write32 addr v s) else .error (.hostMisalignedAddress addr)

/-! ## External stop and disassembly -/

/-- The host's stop request (R233). DESIGN CHOICE (log entry 17; unsafe): R233's words hold in every run state, so a request while
already `Halted` replaces the stop reason. -/
def hostStop (s : State) : State := { s with run := .halted .hostStop }

/-- `decode_for_display(word)` (R234): applies `decode`, reads and writes no state; the text is a free value (log entry 18). -/
def decodeForDisplay (w : Word) : String := Config.displayText (decode w)

end Sys2Proof.Machine
end

