-- ==== Sys2Proof/Safety.lean ====
section
/-!
DEFINITION. The terms claims are stated in: what an observer sees of a state, the shapes of effect an instruction may have
(each with its frame), the destination of an instruction, and the invariant every step keeps.
-/

namespace Sys2Proof.Machine

/-! ## What is observed -/

/-- The byte at an address as the core reads it: the stored byte, or 0 when the address is unmapped (spec/20_memory.md R50). -/
def byteAt (s : State) (a : Nat) : Byte := if mappedIn s.cfg a then s.mem.read a else 0#8

/-- The address is one of the `n` addresses from `addr` upward. -/
def InBytes (addr : Word) (n a : Nat) : Prop := ∃ i, i < n ∧ a = byteKey addr i

/-- No byte of memory differs. -/
def SameBytes (s t : State) : Prop := ∀ a : Nat, t.mem.read a = s.mem.read a

/-- No general register, HI or LO differs. -/
structure SameRegisters (s t : State) : Prop where
  gprs : ∀ r : Reg, t.x r = s.x r
  hi : t.hi = s.hi
  lo : t.lo = s.lo

/-! ## Shapes of effect: what changes, and that nothing else does -/

/-- A cycle that committed and goes on (spec/40_cycle.md R85): the counter went up by 1, the run state is `Running`, next equals
current, and the configuration is the same. -/
structure Retired (s t : State) : Prop where
  count : t.count = s.count + 1
  run : t.run = .running
  next : t.nxt = t.cur
  cfg : t.cfg = s.cfg

/-- The instruction wrote `v` to register `d` (discarded for a hard-wired register 0, spec/40_cycle.md R86) and moved on to
`pc'`; nothing else changed. -/
structure WritesRegister (s t : State) (d : Reg) (v pc' : Word) : Prop where
  retired : Retired s t
  dest : t.x d = if d = 0 ∧ s.cfg.r0Hardwired = true then 0#32 else v
  others : ∀ r : Reg, r ≠ d → t.x r = s.x r
  hi : t.hi = s.hi
  lo : t.lo = s.lo
  pc : t.pc = pc'
  bytes : SameBytes s t

/-- The instruction left HI and LO holding `hi'` and `lo'` and moved on to `pc + 4`; nothing else changed. -/
structure WritesHiLo (s t : State) (hi' lo' : Word) : Prop where
  retired : Retired s t
  gprs : ∀ r : Reg, t.x r = s.x r
  hi : t.hi = hi'
  lo : t.lo = lo'
  pc : t.pc = s.pc + 4#32
  bytes : SameBytes s t

/-- The instruction set the pc to `pc'`; nothing else changed. -/
structure JumpsTo (s t : State) (pc' : Word) : Prop where
  retired : Retired s t
  regs : SameRegisters s t
  pc : t.pc = pc'
  bytes : SameBytes s t

/-- The instruction stored at most the `n` bytes from `addr` upward, each byte `i` becoming `v i` where the address is mapped and
nothing changing where it is not (spec/20_memory.md R46), and moved on to `pc + 4`; nothing else changed. -/
structure StoresBytes (s t : State) (addr : Word) (n : Nat) (v : Nat → Byte) : Prop where
  retired : Retired s t
  regs : SameRegisters s t
  pc : t.pc = s.pc + 4#32
  stored : mappedIn s.cfg addr.toNat = true → ∀ i, i < n → t.mem.read (byteKey addr i) = v i
  dropped : mappedIn s.cfg addr.toNat = false → SameBytes s t
  others : ∀ a : Nat, ¬ InBytes addr n a → t.mem.read a = s.mem.read a

/-- The core took the fault `f` precisely (spec/60_exceptions.md R222): the run state records it, and nothing else changed. -/
structure TakesFault (s t : State) (f : Fault) : Prop where
  run : t.run = .halted (.fault f)
  regs : SameRegisters s t
  pc : t.pc = s.pc
  bytes : SameBytes s t
  count : t.count = s.count
  next : t.nxt = t.cur
  cfg : t.cfg = s.cfg

/-! ## What an instruction may write (spec/10_state.md R23, R24) -/

/-- The general register an instruction writes, if any (R23). -/
def destOf : Instr → Option Reg
  | .add rd _ _ => some rd
  | .addu rd _ _ => some rd
  | .sub rd _ _ => some rd
  | .subu rd _ _ => some rd
  | .and rd _ _ => some rd
  | .or rd _ _ => some rd
  | .xor rd _ _ => some rd
  | .nor rd _ _ => some rd
  | .slt rd _ _ => some rd
  | .sll rd _ _ => some rd
  | .srl rd _ _ => some rd
  | .sra rd _ _ => some rd
  | .mfhi rd => some rd
  | .mflo rd => some rd
  | .jalr rd _ => some rd
  | .addi rt _ _ => some rt
  | .addiu rt _ _ => some rt
  | .andi rt _ _ => some rt
  | .ori rt _ _ => some rt
  | .xori rt _ _ => some rt
  | .slti rt _ _ => some rt
  | .lui rt _ => some rt
  | .lw rt _ _ => some rt
  | .lh rt _ _ => some rt
  | .lb rt _ _ => some rt
  | .jal _ => some 31
  | .mult _ _ => none
  | .multu _ _ => none
  | .div _ _ => none
  | .divu _ _ => none
  | .mthi _ => none
  | .mtlo _ => none
  | .sw _ _ _ => none
  | .sh _ _ _ => none
  | .sb _ _ _ => none
  | .j _ => none
  | .jr _ => none
  | .beq _ _ _ => none
  | .bne _ _ _ => none
  | .blez _ _ => none
  | .bltz _ _ => none
  | .bgez _ _ => none
  | .bgtz _ _ => none
  | .syscall => none

/-- The value an instruction that commits writes to its destination register (the pseudocode of R100 to R199), whatever register that is;
0 for an instruction without one. -/
def resultOf : Instr → State → Word
  | .add _ rs rt, s => s.x rs + s.x rt
  | .addu _ rs rt, s => s.x rs + s.x rt
  | .sub _ rs rt, s => s.x rs - s.x rt
  | .subu _ rs rt, s => s.x rs - s.x rt
  | .and _ rs rt, s => s.x rs &&& s.x rt
  | .or _ rs rt, s => s.x rs ||| s.x rt
  | .xor _ rs rt, s => s.x rs ^^^ s.x rt
  | .nor _ rs rt, s => ~~~(s.x rs ||| s.x rt)
  | .slt _ rs rt, s => if (s.x rs).toInt < (s.x rt).toInt then 1#32 else 0#32
  | .sll _ rt sa, s => s.x rt <<< sa.toNat
  | .srl _ rt sa, s => s.x rt >>> sa.toNat
  | .sra _ rt sa, s => (s.x rt).sshiftRight sa.toNat
  | .mfhi _, s => s.hi
  | .mflo _, s => s.lo
  | .jalr _ _, s => s.pc + 8#32
  | .addi _ rs imm, s => s.x rs + imm.signExtend 32
  | .addiu _ rs imm, s => s.x rs + imm.signExtend 32
  | .andi _ rs imm, s => s.x rs &&& imm.setWidth 32
  | .ori _ rs imm, s => s.x rs ||| imm.setWidth 32
  | .xori _ rs imm, s => s.x rs ^^^ imm.setWidth 32
  | .slti _ rs imm, s => if (s.x rs).toInt < imm.toInt then 1#32 else 0#32
  | .lui _ imm, _ => imm ++ 0x0000#16
  | .lw _ imm rs, s => read32 s (eaOf rs imm s)
  | .lh _ imm rs, s => (memReadHalf s (eaOf rs imm s)).signExtend 32
  | .lb _ imm rs, s => (memReadByte s (eaOf rs imm s)).signExtend 32
  | .jal _, s => s.pc + 8#32
  | _, _ => 0#32

/-- The instruction is one that may write HI (R24). -/
def writesHi : Instr → Bool
  | .mult _ _ | .multu _ _ | .div _ _ | .divu _ _ | .mthi _ => true
  | _ => false

/-- The instruction is one that may write LO (R24). -/
def writesLo : Instr → Bool
  | .mult _ _ | .multu _ _ | .div _ _ | .divu _ _ | .mtlo _ => true
  | _ => false

/-- The instruction reads HI or LO: MFHI and MFLO only (R24). -/
def readsHiLo : Instr → Bool
  | .mfhi _ | .mflo _ => true
  | _ => false

/-- The bytes an instruction may store to: the effective address and the width of a store (spec/45_load_store.md R174 to R176). -/
def storeTarget : Instr → State → Option (Word × Nat)
  | .sw _ imm rs, s => some (eaOf rs imm s, 4)
  | .sh _ imm rs, s => some (eaOf rs imm s, 2)
  | .sb _ imm rs, s => some (eaOf rs imm s, 1)
  | _, _ => none

/-- The instruction takes its next pc from a register, which may hold any value (spec/46_control_transfer.md R201). -/
def jumpsToRegister : Instr → Bool
  | .jr _ | .jalr _ _ => true
  | _ => false

/-- The next pc of a cycle that commits (spec/40_cycle.md R84): a jump's target, a taken branch's `pc + 4 + boff`, else `pc + 4`. -/
def nextPcOf : Instr → State → Word
  | .j target, s => (s.pc &&& 0xF0000000#32) ||| (target.setWidth 32 <<< 2)
  | .jal target, s => (s.pc &&& 0xF0000000#32) ||| (target.setWidth 32 <<< 2)
  | .jr rs, s => s.x rs
  | .jalr _ rs, s => s.x rs
  | .beq rs rt imm, s => if s.x rs = s.x rt then s.pc + 4#32 + (imm.signExtend 32 <<< 2) else s.pc + 4#32
  | .bne rs rt imm, s => if s.x rs ≠ s.x rt then s.pc + 4#32 + (imm.signExtend 32 <<< 2) else s.pc + 4#32
  | .blez rs imm, s => if (s.x rs).toInt ≤ 0 then s.pc + 4#32 + (imm.signExtend 32 <<< 2) else s.pc + 4#32
  | .bltz rs imm, s => if (s.x rs).toInt < 0 then s.pc + 4#32 + (imm.signExtend 32 <<< 2) else s.pc + 4#32
  | .bgez rs imm, s => if (s.x rs).toInt ≥ 0 then s.pc + 4#32 + (imm.signExtend 32 <<< 2) else s.pc + 4#32
  | .bgtz rs imm, s => if (s.x rs).toInt > 0 then s.pc + 4#32 + (imm.signExtend 32 <<< 2) else s.pc + 4#32
  | _, s => s.pc + 4#32

/-! ## The invariant -/

/-- What holds of the core between cycles: the configuration is well formed (spec/20_memory.md R42), the memory has its canonical
form, every listed byte lies in a region (R41), next equals current (spec/10_state.md R31), and a hard-wired register 0 holds 0 (R21). -/
abbrev CoreInv (s : State) : Prop :=
  s.cfg.wf ∧ s.mem.wf ∧ (∀ c ∈ s.mem, mappedIn s.cfg c.1 = true) ∧ s.nxt = s.cur ∧
    (s.cfg.r0Hardwired = true → s.cur.gpr[(0 : Reg)] = 0#32)

end Sys2Proof.Machine
end

