-- ==== Sys2Proof/Certificates/Slice0/Obligations.lean ====
section
/-!
DEFINITION. The statements for the provers. Log entry <n> is notes/assumptions/<n>.md.
The shapes of effect (WritesRegister, WritesHiLo, JumpsTo, StoresBytes, TakesFault) stand in Sys2Proof/Safety.lean; each says what changes
and that nothing else does: registers, HI, LO, pc, every byte of memory, counter, run state, configuration.
-/

open Sys2Proof Sys2Proof.Machine

/-! ## Decoding and encoding (spec/30_encoding.md) -/

/-- Every instruction, with every operand at every value its encoding admits, is decoded from its own word.
The opcode numbers are the spec's decision D14 (log entry 12). -/
def Obligations.DecodeOfEncodeIsTheInstruction : Prop :=
  ∀ i : Instr, decode (encode i) = .known i

/-- A word decodes to an instruction exactly when it agrees with the instruction's encoding on the bits the instruction uses: no used
bit is dropped, no unused bit is looked at (R64, R65; the spec's decisions D12 and D14, log entries 12 and 13). -/
def Obligations.DecodeReadsExactlyTheUsedBits : Prop :=
  ∀ (w : Word) (i : Instr), decode w = .known i ↔ w &&& usedBits i = encode i

/-- A decoded word is selected by its instruction's row of R66, `(word & mask) = match`, and by no other instruction's row
(the numbers are the spec's decision D14, log entry 12). -/
def Obligations.DecodedWordsMatchTheirOpcodeRow : Prop :=
  ∀ (w : Word) (i : Instr), decode w = .known i →
    w &&& (opcodeRow i).1 = (opcodeRow i).2 ∧
    ∀ k : Instr, w &&& (opcodeRow k).1 = (opcodeRow k).2 → opcodeRow k = opcodeRow i

/-- The words that decode to unknown are those R67 lists, by opcode, funct and rt, and unknown keeps the word
(the numbers are the spec's decision D14, log entry 12). -/
def Obligations.UnknownWordsAreTheUnlistedOnes : Prop :=
  (∀ w v : Word, decode w = .unknown v → v = w) ∧
  ∀ w : Word, decode w = .unknown w ↔
    (w.toNat / 2 ^ 26 ∈ [0x0B, 0x22, 0x24, 0x25, 0x26, 0x27, 0x2A] ∨
      (0x10 ≤ w.toNat / 2 ^ 26 ∧ w.toNat / 2 ^ 26 ≤ 0x1F) ∨ 0x2C ≤ w.toNat / 2 ^ 26) ∨
    (w.toNat / 2 ^ 26 = 0x00 ∧ w.toNat % 2 ^ 6 ∉
      [0x00, 0x02, 0x03, 0x08, 0x09, 0x0C, 0x10, 0x11, 0x12, 0x13, 0x18, 0x19, 0x1A, 0x1B, 0x20, 0x21, 0x22, 0x23,
       0x24, 0x25, 0x26, 0x27, 0x2A]) ∨
    (w.toNat / 2 ^ 26 = 0x01 ∧ w.toNat / 2 ^ 16 % 2 ^ 5 ∉ [0x00, 0x01])

/-- Where each field of the three formats stands in the word (R61, R62, R63), each unsigned. -/
def Obligations.FieldPositionsInTheWord : Prop :=
  ∀ w : Word,
    (fieldOpcode w).toNat = w.toNat / 2 ^ 26 ∧
    (fieldRs w).val = w.toNat / 2 ^ 21 % 2 ^ 5 ∧
    (fieldRt w).val = w.toNat / 2 ^ 16 % 2 ^ 5 ∧
    (fieldRd w).val = w.toNat / 2 ^ 11 % 2 ^ 5 ∧
    (fieldShamt w).toNat = w.toNat / 2 ^ 6 % 2 ^ 5 ∧
    (fieldFunct w).toNat = w.toNat % 2 ^ 6 ∧
    (fieldImm w).toNat = w.toNat % 2 ^ 16 ∧
    (fieldTarget w).toNat = w.toNat % 2 ^ 26

/-- Words of the spec's examples, one or more per family, decode to the instructions they stand for (sanity). Every line is a claim about
opcode numbers, which are the spec's decision D14 from general knowledge (PRESUMED, log entry 12), not its source's; that SYSCALL's word may
have its code bits set is the spec's decision D12 (log entry 13). -/
def Obligations.ExampleWordsDecode : Prop :=
  decode 0x01095020#32 = .known (.add 10 8 9) ∧
  decode 0x27BDFFFC#32 = .known (.addiu 29 29 0xFFFC#16) ∧
  decode 0x0109001A#32 = .known (.div 8 9) ∧
  decode 0x3109FF00#32 = .known (.andi 9 8 0xFF00#16) ∧
  decode 0x000957C0#32 = .known (.sll 10 9 31#5) ∧
  decode 0x00005010#32 = .known (.mfhi 10) ∧
  decode 0xA5280002#32 = .known (.sh 8 0x0002#16 9) ∧
  decode 0x0C100008#32 = .known (.jal 0x0100008#26) ∧
  decode 0x05010003#32 = .known (.bgez 8 0x0003#16) ∧
  decode 0x03FFFFCC#32 = .known .syscall ∧
  decode 0x0000000D#32 = .unknown 0x0000000D#32

/-! ## Arithmetic (spec/41_arithmetic.md) -/

/-- ADD and ADDU write `x[rs] + x[rt]`, SUB and SUBU `x[rs] - x[rt]`, modulo 2^32, and raise nothing (R100 to R103). -/
def Obligations.AddSubRegisterResults : Prop :=
  ∀ (rd rs rt : Reg) (s : State),
    (∃ t, exec (.add rd rs rt) s = .next t ∧ WritesRegister s t rd (s.x rs + s.x rt) (s.pc + 4#32)) ∧
    (∃ t, exec (.addu rd rs rt) s = .next t ∧ WritesRegister s t rd (s.x rs + s.x rt) (s.pc + 4#32)) ∧
    (∃ t, exec (.sub rd rs rt) s = .next t ∧ WritesRegister s t rd (s.x rs - s.x rt) (s.pc + 4#32)) ∧
    (∃ t, exec (.subu rd rs rt) s = .next t ∧ WritesRegister s t rd (s.x rs - s.x rt) (s.pc + 4#32))

/-- ADDI and ADDIU write `x[rs] + sext_32(imm)` modulo 2^32 and raise nothing (R104, R105). -/
def Obligations.AddImmediateResults : Prop :=
  ∀ (rt rs : Reg) (imm : Half) (s : State),
    (∃ t, exec (.addi rt rs imm) s = .next t ∧
      WritesRegister s t rt (s.x rs + BitVec.ofInt 32 imm.toInt) (s.pc + 4#32)) ∧
    (∃ t, exec (.addiu rt rs imm) s = .next t ∧
      WritesRegister s t rt (s.x rs + BitVec.ofInt 32 imm.toInt) (s.pc + 4#32))

/-! ## Multiply and divide (spec/42_multiply_divide.md) -/

/-- HI:LO is the exact 64-bit product: signed for MULT, unsigned for MULTU (R120, R121; signedness is the spec's decision D10, log entry 10). -/
def Obligations.MultiplyGivesTheExactProduct : Prop :=
  ∀ (rs rt : Reg) (s : State),
    (∃ t, exec (.mult rs rt) s = .next t ∧ WritesHiLo s t t.hi t.lo ∧
      (t.hi ++ t.lo : BitVec 64).toInt = (s.x rs).toInt * (s.x rt).toInt) ∧
    (∃ t, exec (.multu rs rt) s = .next t ∧ WritesHiLo s t t.hi t.lo ∧
      (t.hi ++ t.lo : BitVec 64).toNat = (s.x rs).toNat * (s.x rt).toNat)

/-- DIV with a non-zero divisor, but for -2^31 by -1: LO is the quotient rounded toward zero and HI the remainder with the dividend's
sign (R122; signedness and rounding are the spec's decision D10, log entry 10). -/
def Obligations.SignedDivideResult : Prop :=
  ∀ (rs rt : Reg) (s : State), s.x rt ≠ 0#32 → ¬ (s.x rs = 0x80000000#32 ∧ s.x rt = 0xFFFFFFFF#32) →
    ∃ t, exec (.div rs rt) s = .next t ∧ WritesHiLo s t t.hi t.lo ∧
      t.lo.toInt = (s.x rs).toInt.tdiv (s.x rt).toInt ∧ t.hi.toInt = (s.x rs).toInt.tmod (s.x rt).toInt

/-- DIVU with a non-zero divisor: LO is the quotient and HI the remainder of the unsigned values (R123; D10, log entry 10). -/
def Obligations.UnsignedDivideResult : Prop :=
  ∀ (rs rt : Reg) (s : State), s.x rt ≠ 0#32 →
    ∃ t, exec (.divu rs rt) s = .next t ∧ WritesHiLo s t t.hi t.lo ∧
      t.lo.toNat = (s.x rs).toNat / (s.x rt).toNat ∧ t.hi.toNat = (s.x rs).toNat % (s.x rt).toNat

/-- DIV and DIVU by zero take ArithmeticFault(DivideByZero), with HI and LO kept (R122, R123; the spec's decisions D8 and D16,
log entries 11 and 24). -/
def Obligations.DivideByZeroFaults : Prop :=
  ∀ (rs rt : Reg) (s : State), s.x rt = 0#32 →
    (∃ t, exec (.div rs rt) s = .next t ∧ TakesFault s t (.arithmeticFault .divideByZero s.pc)) ∧
    (∃ t, exec (.divu rs rt) s = .next t ∧ TakesFault s t (.arithmeticFault .divideByZero s.pc))

/-- DIV of 0x80000000 by 0xFFFFFFFF faults when `DIV_OVERFLOW_FAULTS`, and else writes LO = 0x80000000 and HI = 0; DIVU of the same
operands has no overflow case (R124; the spec's decision D9, log entry 11). -/
def Obligations.DivideOverflowFollowsTheParameter : Prop :=
  ∀ (rs rt : Reg) (s : State), s.x rs = 0x80000000#32 → s.x rt = 0xFFFFFFFF#32 →
    (s.cfg.divOverflowFaults = true →
      ∃ t, exec (.div rs rt) s = .next t ∧ TakesFault s t (.arithmeticFault .divideOverflow s.pc)) ∧
    (s.cfg.divOverflowFaults = false →
      ∃ t, exec (.div rs rt) s = .next t ∧ WritesHiLo s t 0x00000000#32 0x80000000#32) ∧
    (∃ t, exec (.divu rs rt) s = .next t ∧ WritesHiLo s t 0x80000000#32 0x00000000#32)

/-- The division laws (R125): where no fault was taken, dividend = quotient * divisor + remainder, modulo 2^32 always and exactly but
for the overflow operands; the remainder is below the divisor in magnitude and is 0 or has the dividend's sign. That DIV is signed and DIVU
unsigned, the rounding and the remainder's sign are the spec's decision D10 (PRESUMED, log entry 10).
With `DIV_OVERFLOW_FAULTS` false the exact law fails on the overflow operands, as D9 says (log entry 11). -/
def Obligations.DivisionLaws : Prop :=
  ∀ (rs rt : Reg) (s t : State), t.run = .running →
    (exec (.div rs rt) s = .next t →
      s.x rs = t.lo * s.x rt + t.hi ∧
      (¬ (s.x rs = 0x80000000#32 ∧ s.x rt = 0xFFFFFFFF#32) →
        (s.x rs).toInt = t.lo.toInt * (s.x rt).toInt + t.hi.toInt) ∧
      t.hi.toInt.natAbs < (s.x rt).toInt.natAbs ∧
      (t.hi.toInt = 0 ∨ t.hi.toInt.sign = (s.x rs).toInt.sign)) ∧
    (exec (.divu rs rt) s = .next t →
      (s.x rs).toNat = t.lo.toNat * (s.x rt).toNat + t.hi.toNat ∧ t.hi.toNat < (s.x rt).toNat)

/-! ## Logical, compare, shift (spec/43_logical_compare_shift.md; register roles are the spec's decision D13, log entry 14) -/

/-- AND, OR, XOR, NOR of registers, bit by bit (R130 to R133). -/
def Obligations.LogicalRegisterResults : Prop :=
  ∀ (rd rs rt : Reg) (s : State),
    (∃ t, exec (.and rd rs rt) s = .next t ∧ WritesRegister s t rd (s.x rs &&& s.x rt) (s.pc + 4#32)) ∧
    (∃ t, exec (.or rd rs rt) s = .next t ∧ WritesRegister s t rd (s.x rs ||| s.x rt) (s.pc + 4#32)) ∧
    (∃ t, exec (.xor rd rs rt) s = .next t ∧ WritesRegister s t rd (s.x rs ^^^ s.x rt) (s.pc + 4#32)) ∧
    (∃ t, exec (.nor rd rs rt) s = .next t ∧ WritesRegister s t rd (~~~(s.x rs ||| s.x rt)) (s.pc + 4#32))

/-- ANDI, ORI, XORI with the zero-extended immediate (R134 to R136). -/
def Obligations.LogicalImmediateResults : Prop :=
  ∀ (rt rs : Reg) (imm : Half) (s : State),
    (∃ t, exec (.andi rt rs imm) s = .next t ∧
      WritesRegister s t rt (s.x rs &&& BitVec.ofNat 32 imm.toNat) (s.pc + 4#32)) ∧
    (∃ t, exec (.ori rt rs imm) s = .next t ∧
      WritesRegister s t rt (s.x rs ||| BitVec.ofNat 32 imm.toNat) (s.pc + 4#32)) ∧
    (∃ t, exec (.xori rt rs imm) s = .next t ∧
      WritesRegister s t rt (s.x rs ^^^ BitVec.ofNat 32 imm.toNat) (s.pc + 4#32))

/-- SLT and SLTI write 1 when signed less than, else 0; SLTI's immediate is sign-extended (R140, R141). -/
def Obligations.SetOnLessResults : Prop :=
  ∀ (s : State),
    (∀ rd rs rt : Reg, ∃ t, exec (.slt rd rs rt) s = .next t ∧
      WritesRegister s t rd (if (s.x rs).toInt < (s.x rt).toInt then 1#32 else 0#32) (s.pc + 4#32)) ∧
    (∀ (rt rs : Reg) (imm : Half), ∃ t, exec (.slti rt rs imm) s = .next t ∧
      WritesRegister s t rt (if (s.x rs).toInt < imm.toInt then 1#32 else 0#32) (s.pc + 4#32))

/-- SLL multiplies by 2^shamt modulo 2^32, SRL divides the unsigned value and SRA the signed value by 2^shamt, rounding down
(R145 to R147): the shifts of x[rt] by 0 to 31 places. -/
def Obligations.ShiftResults : Prop :=
  ∀ (rd rt : Reg) (sa : BitVec 5) (s : State),
    (∃ t, exec (.sll rd rt sa) s = .next t ∧
      WritesRegister s t rd (BitVec.ofNat 32 ((s.x rt).toNat * 2 ^ sa.toNat)) (s.pc + 4#32)) ∧
    (∃ t, exec (.srl rd rt sa) s = .next t ∧
      WritesRegister s t rd (BitVec.ofNat 32 ((s.x rt).toNat / 2 ^ sa.toNat)) (s.pc + 4#32)) ∧
    (∃ t, exec (.sra rd rt sa) s = .next t ∧
      WritesRegister s t rd (BitVec.ofInt 32 ((s.x rt).toInt / 2 ^ sa.toNat)) (s.pc + 4#32))

/-! ## HI/LO moves (spec/44_hilo_move.md; register roles are the spec's decision D13, log entry 14) -/

/-- MFHI and MFLO copy HI and LO to x[rd]; MTHI and MTLO copy x[rs] to HI or LO and keep the other (R160 to R163). -/
def Obligations.HiLoMoveResults : Prop :=
  ∀ (r : Reg) (s : State),
    (∃ t, exec (.mfhi r) s = .next t ∧ WritesRegister s t r s.hi (s.pc + 4#32)) ∧
    (∃ t, exec (.mflo r) s = .next t ∧ WritesRegister s t r s.lo (s.pc + 4#32)) ∧
    (∃ t, exec (.mthi r) s = .next t ∧ WritesHiLo s t (s.x r) s.lo) ∧
    (∃ t, exec (.mtlo r) s = .next t ∧ WritesHiLo s t s.hi (s.x r))

/-! ## Loads and stores (spec/45_load_store.md; the alignment faults are the spec's decision D4, log entry 7) -/

/-- LW at a multiple of 4 loads the little-endian word of the four bytes from ea up, an unmapped one loading 0 (R170, R171). -/
def Obligations.LoadWordResult : Prop :=
  ∀ (rt rs : Reg) (imm : Half) (s : State) (ea : Word), CoreInv s → ea = s.x rs + imm.signExtend 32 → ea.toNat % 4 = 0 →
    ∃ t, exec (.lw rt imm rs) s = .next t ∧
      WritesRegister s t rt
        (byteAt s (ea.toNat + 3) ++ byteAt s (ea.toNat + 2) ++ byteAt s (ea.toNat + 1) ++ byteAt s ea.toNat : BitVec 32)
        (s.pc + 4#32)

/-- LH at an even address loads the sign-extended halfword of the bytes at ea and ea + 1, LB at any address the sign-extended byte at
ea; unmapped ones load 0 (R170, R172, R173, R178). -/
def Obligations.LoadSubwordResults : Prop :=
  ∀ (rt rs : Reg) (imm : Half) (s : State) (ea : Word), CoreInv s → ea = s.x rs + imm.signExtend 32 →
    (ea.toNat % 2 = 0 → ∃ t, exec (.lh rt imm rs) s = .next t ∧
      WritesRegister s t rt
        ((byteAt s (ea.toNat + 1) ++ byteAt s ea.toNat : BitVec 16).signExtend 32) (s.pc + 4#32)) ∧
    (∃ t, exec (.lb rt imm rs) s = .next t ∧
      WritesRegister s t rt ((byteAt s ea.toNat).signExtend 32) (s.pc + 4#32))

/-- SW at a multiple of 4 stores the four bytes of x[rt] from ea up, bits 7:0 lowest, and changes no other byte; at an unmapped ea it
changes nothing (R170, R174). -/
def Obligations.StoreWordEffect : Prop :=
  ∀ (rt rs : Reg) (imm : Half) (s : State) (ea : Word), CoreInv s → ea = s.x rs + imm.signExtend 32 → ea.toNat % 4 = 0 →
    ∃ t, exec (.sw rt imm rs) s = .next t ∧ StoresBytes s t ea 4 (fun i => (s.x rt).extractLsb' (8 * i) 8)

/-- SH at an even address stores the two low bytes of x[rt], SB at any address the low byte, and they change no other byte, not even of
the containing word; at an unmapped ea they change nothing (R170, R175, R176, R179). -/
def Obligations.StoreSubwordEffects : Prop :=
  ∀ (rt rs : Reg) (imm : Half) (s : State) (ea : Word), CoreInv s → ea = s.x rs + imm.signExtend 32 →
    (ea.toNat % 2 = 0 → ∃ t, exec (.sh rt imm rs) s = .next t ∧
      StoresBytes s t ea 2 (fun i => (s.x rt).extractLsb' (8 * i) 8)) ∧
    (∃ t, exec (.sb rt imm rs) s = .next t ∧ StoresBytes s t ea 1 (fun _ => (s.x rt).extractLsb' 0 8))

/-- LW and SW at an address that is no multiple of 4, and LH and SH at an odd one, take MisalignedData(pc, ea) and change nothing
(R170; the spec's decision D4, log entry 7). -/
def Obligations.MisalignedDataFaults : Prop :=
  ∀ (rt rs : Reg) (imm : Half) (s : State) (ea : Word), ea = s.x rs + imm.signExtend 32 →
    (ea.toNat % 4 ≠ 0 →
      (∃ t, exec (.lw rt imm rs) s = .next t ∧ TakesFault s t (.misalignedData s.pc ea)) ∧
      (∃ t, exec (.sw rt imm rs) s = .next t ∧ TakesFault s t (.misalignedData s.pc ea))) ∧
    (ea.toNat % 2 ≠ 0 →
      (∃ t, exec (.lh rt imm rs) s = .next t ∧ TakesFault s t (.misalignedData s.pc ea)) ∧
      (∃ t, exec (.sh rt imm rs) s = .next t ∧ TakesFault s t (.misalignedData s.pc ea)))

/-- LUI writes imm * 2^16 and touches no memory (R177). -/
def Obligations.LoadUpperImmediateResult : Prop :=
  ∀ (rt : Reg) (imm : Half) (s : State),
    ∃ t, exec (.lui rt imm) s = .next t ∧
      WritesRegister s t rt (BitVec.ofNat 32 (imm.toNat * 2 ^ 16)) (s.pc + 4#32)

/-! ## Control transfer (spec/46_control_transfer.md) -/

/-- J and JAL go to the target in the current pc's 256 MiB block; JAL writes pc + 8 to register 31 (R190, R191). -/
def Obligations.JumpResults : Prop :=
  ∀ (target : BitVec 26) (s : State),
    (∃ t, exec (.j target) s = .next t ∧
      JumpsTo s t ((s.pc &&& 0xF0000000#32) ||| (target.setWidth 32 <<< 2))) ∧
    (∃ t, exec (.jal target) s = .next t ∧
      WritesRegister s t 31 (s.pc + 8#32) ((s.pc &&& 0xF0000000#32) ||| (target.setWidth 32 <<< 2)))

/-- JR goes to x[rs], any value; JALR also writes pc + 8 to x[rd] and jumps to the OLD x[rs], also when rd = rs (R192, R193). -/
def Obligations.RegisterJumpResults : Prop :=
  ∀ (rd rs : Reg) (s : State),
    (∃ t, exec (.jr rs) s = .next t ∧ JumpsTo s t (s.x rs)) ∧
    (∃ t, exec (.jalr rd rs) s = .next t ∧ WritesRegister s t rd (s.pc + 8#32) (s.x rs))

/-- The six branches: to pc + 4 + (sext_32(imm) << 2) exactly when their condition holds, else to pc + 4; nothing else changes
(R194 to R199). -/
def Obligations.BranchResults : Prop :=
  ∀ (rs rt : Reg) (imm : Half) (s : State) (taken untaken : Word),
    taken = s.pc + 4#32 + (imm.signExtend 32 <<< 2) → untaken = s.pc + 4#32 →
    (∃ t, exec (.beq rs rt imm) s = .next t ∧ JumpsTo s t (if s.x rs = s.x rt then taken else untaken)) ∧
    (∃ t, exec (.bne rs rt imm) s = .next t ∧ JumpsTo s t (if s.x rs = s.x rt then untaken else taken)) ∧
    (∃ t, exec (.blez rs imm) s = .next t ∧ JumpsTo s t (if (s.x rs).toInt ≤ 0 then taken else untaken)) ∧
    (∃ t, exec (.bltz rs imm) s = .next t ∧ JumpsTo s t (if (s.x rs).toInt < 0 then taken else untaken)) ∧
    (∃ t, exec (.bgez rs imm) s = .next t ∧ JumpsTo s t (if 0 ≤ (s.x rs).toInt then taken else untaken)) ∧
    (∃ t, exec (.bgtz rs imm) s = .next t ∧ JumpsTo s t (if 0 < (s.x rs).toInt then taken else untaken))

/-! ## System (spec/47_system.md) and the step (spec/40_cycle.md) -/

/-- SYSCALL commits with pc + 4, counts, and halts with stop reason Syscall; it changes no register and no byte
(R210; that the cycle commits is the spec's decision D15, log entry 15). -/
def Obligations.SyscallHalts : Prop :=
  ∀ s : State, ∃ t, exec .syscall s = .next t ∧ t.run = .halted .syscall ∧ t.pc = s.pc + 4#32 ∧ t.count = s.count + 1 ∧
    SameRegisters s t ∧ SameBytes s t ∧ t.nxt = t.cur ∧ t.cfg = s.cfg

/-- When the core is not halted, the pc is a multiple of 4 and the word at the pc decodes to i, a step is exec of i; the model's step
adds nothing around it (R80, R82). -/
def Obligations.StepRunsTheDecodedInstruction : Prop :=
  ∀ (s : State) (i : Instr), isHalted s.run = false → s.pc.toNat % 4 = 0 → decode (read32 s s.pc) = .known i →
    step s = exec i s

/-- A misaligned pc takes MisalignedFetch(pc) before anything else; a word that decodes to unknown takes
UnsupportedInstruction(pc, word) (R81, R211; the spec's decisions D5 and D7, log entries 8 and 9). -/
def Obligations.FetchStageFaults : Prop :=
  ∀ s : State, isHalted s.run = false →
    (s.pc.toNat % 4 ≠ 0 → ∃ t, step s = .next t ∧ TakesFault s t (.misalignedFetch s.pc)) ∧
    (∀ w : Word, s.pc.toNat % 4 = 0 → decode (read32 s s.pc) = .unknown w →
      ∃ t, step s = .next t ∧ TakesFault s t (.unsupportedInstruction s.pc w))

/-- A fetch from an unmapped multiple of 4 reads the all-zero word, which runs as a no-op: only the pc advances, by 4
(R81, R68; SLL's number is the spec's decision D14, log entry 12). -/
def Obligations.UnmappedFetchIsNoOp : Prop :=
  ∀ s : State, isHalted s.run = false → s.pc.toNat % 4 = 0 → mappedIn s.cfg s.pc.toNat = false →
    ∃ t, step s = .next t ∧ JumpsTo s t (s.pc + 4#32)

/-- In Halted a step changes nothing, and run(n) executes zero cycles for every n (R80, R230, R240). -/
def Obligations.HaltedCoreStaysPut : Prop :=
  ∀ s : State, isHalted s.run = true → step s = .next s ∧ ∀ n : Nat, hostRun n s = .next (s, 0)

/-- Every step from every state answers a next state, with the same configuration: a step in Halted changes nothing (R80) and a fault leaves
a core in Halted (R222). That a fault is a next state of the model and never Outcome.fault is the model's reading (DEDUCED, log entry 3);
that the configuration stands in the state and no step changes it is the model's choice (DESIGN CHOICE, log entry 1). -/
def Obligations.StepAlwaysAnswers : Prop :=
  ∀ s : State, ∃ t, step s = .next t ∧ t.cfg = s.cfg

/-- A fault is precise, whichever instruction raised it: the state after it is the state before, but for the run state
(R222; the spec's decision D16, log entry 24). -/
def Obligations.FaultsArePrecise : Prop :=
  ∀ (s t : State) (f : Fault), isHalted s.run = false → step s = .next t → t.run = .halted (.fault f) → TakesFault s t f

/-- Who raises each fault, and when, over the whole instruction set; the recorded pc is the faulting instruction's
(R221, R224; the spec's decisions D4, D5, D7, D9, D16, log entries 7, 8, 9, 11, 24). -/
def Obligations.FaultOrigins : Prop :=
  ∀ (s t : State) (f : Fault), isHalted s.run = false → step s = .next t → t.run = .halted (.fault f) →
    match f with
    | .misalignedFetch p => p = s.pc ∧ s.pc.toNat % 4 ≠ 0
    | .unsupportedInstruction p w =>
      p = s.pc ∧ s.pc.toNat % 4 = 0 ∧ w = read32 s s.pc ∧ decode w = .unknown w
    | .arithmeticFault .divideByZero p =>
      p = s.pc ∧ ∃ rs rt : Reg, s.x rt = 0#32 ∧
        (decode (read32 s s.pc) = .known (.div rs rt) ∨ decode (read32 s s.pc) = .known (.divu rs rt))
    | .arithmeticFault .divideOverflow p =>
      p = s.pc ∧ s.cfg.divOverflowFaults = true ∧ ∃ rs rt : Reg,
        s.x rs = 0x80000000#32 ∧ s.x rt = 0xFFFFFFFF#32 ∧ decode (read32 s s.pc) = .known (.div rs rt)
    | .misalignedData p ea =>
      p = s.pc ∧ ∃ (rt rs : Reg) (imm : Half), ea = s.x rs + imm.signExtend 32 ∧
        ((ea.toNat % 4 ≠ 0 ∧ (decode (read32 s s.pc) = .known (.lw rt imm rs) ∨
            decode (read32 s s.pc) = .known (.sw rt imm rs))) ∨
          (ea.toNat % 2 ≠ 0 ∧ (decode (read32 s s.pc) = .known (.lh rt imm rs) ∨
            decode (read32 s s.pc) = .known (.sh rt imm rs))))

/-- From a core that is not halted, a step ends the run normally exactly when it runs SYSCALL, never leaves Ready behind it, and never
records a host stop (R29, R223, R210, R233). -/
def Obligations.NormalEndOnlyBySyscall : Prop :=
  ∀ s t : State, isHalted s.run = false → step s = .next t →
    (t.run = .halted .syscall ↔ s.pc.toNat % 4 = 0 ∧ decode (read32 s s.pc) = .known .syscall) ∧
    t.run ≠ .ready ∧ t.run ≠ .halted .hostStop

/-- The counter increases by exactly 1 at a cycle that commits and by nothing else: not in Halted, not at a fault
(R30, R85; unbounded by the spec's decision D17, log entry 16). -/
def Obligations.CounterCountsCommits : Prop :=
  ∀ s t : State, step s = .next t →
    ((isHalted s.run = true ∨ ∃ f, t.run = .halted (.fault f)) → t.count = s.count) ∧
    (¬ (isHalted s.run = true ∨ ∃ f, t.run = .halted (.fault f)) → t.count = s.count + 1)

/-! ## What no instruction may touch -/

/-- Every instruction leaves every general register but its one destination unchanged (R23, R88). -/
def Obligations.OnlyTheDestinationRegisterChanges : Prop :=
  ∀ (i : Instr) (s t : State), exec i s = .next t → ∀ r : Reg, destOf i ≠ some r → t.x r = s.x r

/-- HI and LO (R24): MULT, MULTU, DIV and DIVU, where they commit, write both, so neither depends on its old value; MTHI writes HI and
MTLO LO; MFHI and MFLO read them; no other instruction writes either, and no other instruction's other effects depend on them. -/
def Obligations.HiLoOnlyByTheirInstructions : Prop :=
  ∀ (i : Instr) (s t : State), exec i s = .next t →
    (writesHi i = false → t.hi = s.hi) ∧
    (writesLo i = false → t.lo = s.lo) ∧
    (∀ rs, i = .mthi rs → t.hi = s.x rs) ∧
    (∀ rs, i = .mtlo rs → t.lo = s.x rs) ∧
    (∀ rd, i = .mfhi rd → hardwiredZero s.cfg rd = false → t.x rd = s.hi) ∧
    (∀ rd, i = .mflo rd → hardwiredZero s.cfg rd = false → t.x rd = s.lo) ∧
    ∀ (a b : Word) (t' : State), exec i { s with cur := { s.cur with hi := a, lo := b } } = .next t' →
      (readsHiLo i = false → (∀ r : Reg, t'.x r = t.x r) ∧ t'.pc = t.pc ∧ t'.mem = t.mem ∧ t'.run = t.run) ∧
      (writesHi i = true → writesLo i = true → t.run = .running → t'.hi = t.hi ∧ t'.lo = t.lo)

/-- No instruction changes a byte of memory but a store, and a store only the bytes at its effective address (R48, R83). -/
def Obligations.OnlyStoresChangeMemory : Prop :=
  ∀ (i : Instr) (s t : State), CoreInv s → exec i s = .next t →
    (storeTarget i s = none → SameBytes s t) ∧
    (∀ (ea : Word) (n : Nat), storeTarget i s = some (ea, n) →
      ∀ a : Nat, ¬ InBytes ea n a → t.mem.read a = s.mem.read a)

/-- The next pc of every cycle that commits: pc + 4, but for a jump's target and a taken branch's pc + 4 + boff (R84), SYSCALL's included
(pc + 4: the spec's decision D15, log entry 15). And the next cycle fetches from it: where the core is not halted, the fetch stage answers
the instruction the word there decodes to, or UnsupportedInstruction for an unknown word, or MisalignedFetch where the new pc is no multiple
of 4 (R81, R211; the spec's decisions D5 and D7, log entries 8 and 9). -/
def Obligations.PcUpdateRule : Prop :=
  ∀ (i : Instr) (s t : State), exec i s = .next t → (∀ f, t.run ≠ .halted (.fault f)) →
    t.pc = nextPcOf i s ∧ (isHalted t.run = false → fetchDecode t =
      if (nextPcOf i s).toNat % 4 = 0 then
        (match decode (read32 t (nextPcOf i s)) with
          | .known k => .ok k
          | .unknown w => .error (.unsupportedInstruction (nextPcOf i s) w))
      else .error (.misalignedFetch (nextPcOf i s)))

/-- From a pc that is a multiple of 4, every instruction but JR and JALR leaves one (R26, R201). -/
def Obligations.PcStaysAligned : Prop :=
  ∀ (i : Instr) (s t : State), jumpsToRegister i = false → s.pc.toNat % 4 = 0 → exec i s = .next t → t.pc.toNat % 4 = 0

/-- Register 0 (R21, R86; the spec's decision D1, log entry 4). Hard-wired it reads 0; an instruction whose destination is register 0 changes
no register; under the invariant both snapshots still store 0 for it after every instruction; and a host write to it is discarded.
Not hard-wired it is read from its storage like any register; an instruction that commits with destination 0 leaves there the value it
computes, every other instruction and every faulting one leaves it as it was, and a host write is kept. -/
def Obligations.RegisterZeroTreatment : Prop :=
  ∀ s : State,
    (s.cfg.r0Hardwired = true →
      s.x 0 = 0#32 ∧
      (∀ (i : Instr) (t : State), exec i s = .next t →
        t.x 0 = 0#32 ∧ (destOf i = some 0 → ∀ r : Reg, t.x r = s.x r) ∧
        (CoreInv s → t.cur.gpr[(0 : Reg)] = 0#32 ∧ t.nxt.gpr[(0 : Reg)] = 0#32)) ∧
      ∀ v : Word, hostWriteRegister 0 v s = .ok s) ∧
    (s.cfg.r0Hardwired = false →
      s.x 0 = s.cur.gpr[(0 : Reg)] ∧
      (∀ (i : Instr) (t : State), exec i s = .next t →
        (destOf i = some 0 → (∀ f, t.run ≠ .halted (.fault f)) → t.x 0 = resultOf i s) ∧
        (destOf i ≠ some 0 ∨ (∃ f, t.run = .halted (.fault f)) → t.x 0 = s.x 0)) ∧
      ∀ v : Word, ∃ t, hostWriteRegister 0 v s = .ok t ∧ t.x 0 = v)

/-- Execution reads the current snapshot only: what the next snapshot held before the cycle makes no difference
(R83, R87; that next starts equal to current is the spec's decision D11, log entry 5). -/
def Obligations.NextSnapshotIsNeverRead : Prop :=
  ∀ (i : Instr) (s : State) (n : Snapshot), exec i { s with nxt := n } = exec i s

/-! ## Memory (spec/20_memory.md) and operand values (spec/30_encoding.md) -/

/-- The word primitives (R44, R45, R46): little-endian, an unmapped read 0, an unmapped write without effect, a mapped write changing its
four bytes and no other; and the byte at a is lane a mod 4 of the word at a & 0xFFFFFFFC. -/
def Obligations.WordPrimitives : Prop :=
  ∀ (s : State) (addr v : Word), CoreInv s → addr.toNat % 4 = 0 →
    (mappedIn s.cfg addr.toNat = true →
      (∀ i, i < 4 → (read32 s addr).extractLsb' (8 * i) 8 = s.mem.read (addr.toNat + i)) ∧
      (∀ i, i < 4 → (write32 addr v s).mem.read (addr.toNat + i) = v.extractLsb' (8 * i) 8) ∧
      (∀ a : Nat, (∀ i, i < 4 → a ≠ addr.toNat + i) → (write32 addr v s).mem.read a = s.mem.read a) ∧
      write32 addr v s = { s with mem := (write32 addr v s).mem }) ∧
    (mappedIn s.cfg addr.toNat = false → read32 s addr = 0#32 ∧ write32 addr v s = s) ∧
    (∀ a : Word, byteAt s a.toNat = (read32 s (a &&& 0xFFFFFFFC#32)).extractLsb' (8 * (a.toNat % 4)) 8)

/-- No address has a side effect on read, an unmapped read returns 0, an unmapped write changes nothing (R50): for every load and store
that commits. -/
def Obligations.UnmappedAccessIsHarmless : Prop :=
  ∀ (rt rs : Reg) (imm : Half) (s t : State) (ea : Word), CoreInv s → ea = s.x rs + imm.signExtend 32 → t.run = .running →
    ((exec (.lw rt imm rs) s = .next t ∨ exec (.lh rt imm rs) s = .next t ∨ exec (.lb rt imm rs) s = .next t) →
      t.mem = s.mem ∧ (mappedIn s.cfg ea.toNat = false → t.x rt = 0#32)) ∧
    ((exec (.sw rt imm rs) s = .next t ∨ exec (.sh rt imm rs) s = .next t ∨ exec (.sb rt imm rs) s = .next t) →
      mappedIn s.cfg ea.toNat = false → t.mem = s.mem)

/-- The branch offset (R70), as a taken branch adds it to pc + 4 (BEQ of a register with itself is always taken): sext_32(imm) << 2,
equal to the sign extension of the 18-bit value imm || 00, a multiple of 4 in [-131072, +131068]. -/
def Obligations.BranchOffsetValue : Prop :=
  ∀ (r : Reg) (imm : Half) (s t : State) (boff : Word), exec (.beq r r imm) s = .next t → boff = t.pc - (s.pc + 4#32) →
    boff = imm.signExtend 32 <<< 2 ∧
    boff = (imm ++ 0#2 : BitVec 18).signExtend 32 ∧
    boff.toInt = imm.toInt * 4 ∧ -131072 ≤ boff.toInt ∧ boff.toInt ≤ 131068

/-- The jump target (R71), as J and JAL use it: built from the current pc of the jump itself, a multiple of 4, in the same 256 MiB block. -/
def Obligations.JumpTargetBlock : Prop :=
  ∀ (target : BitVec 26) (s t : State), (exec (.j target) s = .next t ∨ exec (.jal target) s = .next t) →
    t.pc = (s.pc &&& 0xF0000000#32) ||| (target.setWidth 32 <<< 2) ∧
    t.pc.toNat = s.pc.toNat / 2 ^ 28 * 2 ^ 28 + target.toNat * 4 ∧
    t.pc.toNat % 4 = 0 ∧ t.pc.toNat / 2 ^ 28 = s.pc.toNat / 2 ^ 28

/-- A word stored at a mapped multiple of 4 is what the next load from that address gives (R52). -/
def Obligations.StoreThenLoadGivesTheWord : Prop :=
  ∀ (rt rs rd rb : Reg) (imm off : Half) (s t : State) (ea : Word), CoreInv s → ea = s.x rs + imm.signExtend 32 →
    ea.toNat % 4 = 0 → mappedIn s.cfg ea.toNat = true → exec (.sw rt imm rs) s = .next t →
    t.x rb + off.signExtend 32 = ea →
    ∃ u, exec (.lw rd off rb) t = .next u ∧ WritesRegister t u rd (s.x rt) (t.pc + 4#32)

/-- A word stored over the next instruction is the one the next step runs: no fence, no delay (R55). -/
def Obligations.StoreIsSeenByTheNextFetch : Prop :=
  ∀ (rt rs : Reg) (imm : Half) (s t : State), CoreInv s → s.pc.toNat % 4 = 0 → s.x rs + imm.signExtend 32 = s.pc + 4#32 →
    mappedIn s.cfg (s.pc + 4#32).toNat = true → exec (.sw rt imm rs) s = .next t →
    read32 t t.pc = s.x rt ∧ ∀ i : Instr, decode (s.x rt) = .known i → step t = exec i t

/-! ## The invariant -/

/-- The invariant holds at reset (the example configuration is the model's choice, log entry 2), and at initialize in every well-formed
configuration (R250). -/
def Obligations.InvHoldsAtReset : Prop :=
  CoreInv State.reset ∧ ∀ c : Config, c.wf → CoreInv (State.initialize c)

/-- Every step keeps the invariant: the configuration stays well formed, memory keeps its canonical form and lists no byte outside the
regions (R41), next equals current between cycles (R31), and a hard-wired register 0 holds 0 (R21). -/
def Obligations.InvKeptByEveryStep : Prop :=
  ∀ s t : State, CoreInv s → step s = .next t → CoreInv t

/-- Every host operation between cycles keeps the invariant (R231, R232, R233, R250, R251). -/
def Obligations.InvKeptByTheHost : Prop :=
  ∀ s : State, CoreInv s →
    CoreInv (hostInitialize s) ∧ CoreInv (hostStop s) ∧ (∀ v, CoreInv (hostWriteHi v s) ∧ CoreInv (hostWriteLo v s)) ∧
    (∀ image, CoreInv (hostReset image s)) ∧
    (∀ i v t, hostWriteRegister i v s = .ok t → CoreInv t) ∧
    (∀ addr v t, hostWriteWord addr v s = .ok t → CoreInv t)

/-! ## Reset and the host (spec/70_reset_and_hazards.md, spec/60_exceptions.md) -/

/-- What initialize leaves in every configuration (R34, R250): registers, HI, LO and counter 0, the pc at TEXT_BASE, both snapshots alike,
every byte of every region 0, Ready; and State.reset is it at the example configuration (the model's choice, log entries 2 and 19). -/
def Obligations.ResetValues : Prop :=
  (∀ (c : Config) (s : State), s = State.initialize c →
    (∀ r : Reg, s.x r = 0#32) ∧ (∀ r : Reg, s.cur.gpr[r] = 0#32) ∧ s.hi = 0#32 ∧ s.lo = 0#32 ∧ s.pc = c.textBase ∧
    s.nxt = s.cur ∧ (∀ a : Nat, byteAt s a = 0#8) ∧ s.run = .ready ∧ s.count = 0 ∧ s.cfg = c) ∧
  State.reset = State.initialize Config.exampleConfig

/-- reset(image) (R251), for an image that ends within the address space: allowed in every run state; initialize, then word k of the
image at TEXT_BASE + 4*k where that is mapped and dropped where it is not; every byte outside the image reads 0
(D3 and D19 of the spec, log entry 19). -/
def Obligations.ImageLoadedByReset : Prop :=
  ∀ (s t : State) (image : List Word), s.cfg.wf → s.cfg.textBase.toNat + 4 * image.length ≤ 2 ^ 32 → t = hostReset image s →
    (∀ r : Reg, t.x r = 0#32) ∧ t.hi = 0#32 ∧ t.lo = 0#32 ∧ t.pc = s.cfg.textBase ∧ t.run = .ready ∧ t.count = 0 ∧
    t.cfg = s.cfg ∧
    (∀ (k : Nat) (hk : k < image.length),
      read32 t (s.cfg.textBase + BitVec.ofNat 32 (4 * k)) =
        if mappedIn s.cfg (s.cfg.textBase.toNat + 4 * k) then image[k] else 0#32) ∧
    (∀ a : Nat, (a < s.cfg.textBase.toNat ∨ s.cfg.textBase.toNat + 4 * image.length ≤ a) → byteAt t a = 0#8)

/-- The host's accessors (R231, R232). The reads give the register, HI, LO, the pc, and read32 of a multiple of 4. A register written reads
back, but for a hard-wired register 0, and every other register, HI, LO, the pc, memory, the run state and the counter stay; HI or LO
written reads back, and all the rest stays. A word written at a mapped multiple of 4 reads back and changes no byte but its four, no
register, run state or counter; one at an unmapped multiple of 4 changes nothing. An index from 32 up and an address that is no multiple
of 4 are refused (the spec's decisions D18 and D4, log entry 20). -/
def Obligations.HostAccessors : Prop :=
  ∀ (s : State) (i : Nat) (addr v : Word), CoreInv s →
    (32 ≤ i → hostReadRegister i s = .error (.hostRegisterIndex i) ∧
      hostWriteRegister i v s = .error (.hostRegisterIndex i)) ∧
    (∀ r : Reg, hostReadRegister r s = .ok (s.x r)) ∧
    (∀ r : Reg, ∃ t, hostWriteRegister r v s = .ok t ∧
      t.x r = (if r = 0 ∧ s.cfg.r0Hardwired = true then 0#32 else v) ∧ (∀ q : Reg, q ≠ r → t.x q = s.x q) ∧
      t.hi = s.hi ∧ t.lo = s.lo ∧ t.pc = s.pc ∧ t.mem = s.mem ∧ t.run = s.run ∧ t.count = s.count ∧ t.cfg = s.cfg) ∧
    (addr.toNat % 4 ≠ 0 → hostReadWord addr s = .error (.hostMisalignedAddress addr) ∧
      hostWriteWord addr v s = .error (.hostMisalignedAddress addr)) ∧
    (addr.toNat % 4 = 0 → hostReadWord addr s = .ok (read32 s addr) ∧
      ∃ t, hostWriteWord addr v s = .ok t ∧
        t.cur = s.cur ∧ t.nxt = s.nxt ∧ t.run = s.run ∧ t.count = s.count ∧ t.cfg = s.cfg ∧
        hostReadWord addr t = .ok (if mappedIn s.cfg addr.toNat then v else 0#32) ∧
        (∀ a : Nat, (∀ j, j < 4 → a ≠ addr.toNat + j) → t.mem.read a = s.mem.read a) ∧
        (mappedIn s.cfg addr.toNat = false → t = s)) ∧
    (hostReadHi s = s.hi ∧ hostReadLo s = s.lo ∧ hostReadPc s = s.pc) ∧
    (∀ t, t = hostWriteHi v s →
      t.hi = v ∧ t.lo = s.lo ∧ t.pc = s.pc ∧ (∀ r : Reg, t.x r = s.x r) ∧ t.mem = s.mem ∧ t.run = s.run ∧ t.count = s.count ∧
        t.cfg = s.cfg) ∧
    (∀ t, t = hostWriteLo v s →
      t.hi = s.hi ∧ t.lo = v ∧ t.pc = s.pc ∧ (∀ r : Reg, t.x r = s.x r) ∧ t.mem = s.mem ∧ t.run = s.run ∧ t.count = s.count ∧
        t.cfg = s.cfg)

/-- The external stop (R233): the run state becomes Halted with stop reason HostStop, and nothing else changes. In a core that is
already halted R233's words replace the stop reason (the model's choice, log entry 17). -/
def Obligations.ExternalStopHalts : Prop :=
  ∀ s : State,
    (hostStop s).run = .halted .hostStop ∧ (hostStop s).cur = s.cur ∧ (hostStop s).nxt = s.nxt ∧
    (hostStop s).mem = s.mem ∧ (hostStop s).count = s.count ∧ (hostStop s).cfg = s.cfg ∧
    step (hostStop s) = .next (hostStop s)

/-- run(n) answers for every n and every state, returns the number of cycles that committed, stops early at Halted, and ends in the
state that n steps of the core end in (R230; the count is the spec's decision D20, log entry 22). -/
def Obligations.RunCountsCommittedCycles : Prop :=
  ∀ (n : Nat) (s : State), ∃ t k, hostRun n s = .next (t, k) ∧
    t.count = s.count + k ∧ k ≤ n ∧ (k < n → isHalted t.run = true) ∧ Host.Core.run Sys2Proof.core n s = .next t

/-- reset(image) at a `TEXT_BASE` that is no multiple of 4 (R250, R251): it is not refused; the core is as initialize leaves it, Ready with
its pc at the base, but for what memory holds where the image is not empty (a free value of the model, log entry 26); every byte listed is
a byte of a region; and the next step takes MisalignedFetch. -/
def Obligations.ResetAtMisalignedBase : Prop :=
  ∀ (s t : State) (image : List Word), s.cfg.textBase.toNat % 4 ≠ 0 → t = hostReset image s →
    (∀ r : Reg, t.x r = 0#32) ∧ t.hi = 0#32 ∧ t.lo = 0#32 ∧ t.pc = s.cfg.textBase ∧ t.nxt = t.cur ∧ t.run = .ready ∧
    t.count = 0 ∧ t.cfg = s.cfg ∧ t.mem.wf ∧
    ((∀ r ∈ s.cfg.regions, r.wf) → ∀ c ∈ t.mem, mappedIn s.cfg c.1 = true) ∧
    (image = [] → t = State.initialize s.cfg) ∧
    ∃ u, step t = .next u ∧ TakesFault t u (.misalignedFetch s.cfg.textBase)
end

