-- ==== Sys2Proof/Laws/Decode.lean ====
section
/-!
SUPPORT. The fields of packed words, once per format, and the byte layout of a word.
-/

namespace Sys2Proof

theorem regOfBits_bitsOfReg (r : Reg) : regOfBits (bitsOfReg r) = r := rfl

theorem bitsOfReg_regOfBits (b : BitVec 5) : bitsOfReg (regOfBits b) = b := rfl

/-! ## R-format -/

@[simp] theorem fieldOpcode_packR (rs rt rd : Reg) (sa : BitVec 5) (fn : BitVec 6) :
    fieldOpcode (packR rs rt rd sa fn) = 0x00#6 := by
  unfold fieldOpcode packR
  refine BitVec.eq_of_getLsbD_eq fun i hi => ?_
  interval_cases i <;> simp only [BitVec.getLsbD_extractLsb', BitVec.getLsbD_append] <;> simp

@[simp] theorem fieldFunct_packR (rs rt rd : Reg) (sa : BitVec 5) (fn : BitVec 6) :
    fieldFunct (packR rs rt rd sa fn) = fn := by
  unfold fieldFunct packR
  refine BitVec.eq_of_getLsbD_eq fun i hi => ?_
  interval_cases i <;> simp only [BitVec.getLsbD_extractLsb', BitVec.getLsbD_append] <;> simp

@[simp] theorem fieldShamt_packR (rs rt rd : Reg) (sa : BitVec 5) (fn : BitVec 6) :
    fieldShamt (packR rs rt rd sa fn) = sa := by
  unfold fieldShamt packR
  refine BitVec.eq_of_getLsbD_eq fun i hi => ?_
  interval_cases i <;> simp only [BitVec.getLsbD_extractLsb', BitVec.getLsbD_append] <;> simp

theorem packR_bits_rs (rs rt rd : Reg) (sa : BitVec 5) (fn : BitVec 6) :
    (packR rs rt rd sa fn).extractLsb' 21 5 = bitsOfReg rs := by
  unfold packR
  refine BitVec.eq_of_getLsbD_eq fun i hi => ?_
  interval_cases i <;> simp only [BitVec.getLsbD_extractLsb', BitVec.getLsbD_append] <;> simp

theorem packR_bits_rt (rs rt rd : Reg) (sa : BitVec 5) (fn : BitVec 6) :
    (packR rs rt rd sa fn).extractLsb' 16 5 = bitsOfReg rt := by
  unfold packR
  refine BitVec.eq_of_getLsbD_eq fun i hi => ?_
  interval_cases i <;> simp only [BitVec.getLsbD_extractLsb', BitVec.getLsbD_append] <;> simp

theorem packR_bits_rd (rs rt rd : Reg) (sa : BitVec 5) (fn : BitVec 6) :
    (packR rs rt rd sa fn).extractLsb' 11 5 = bitsOfReg rd := by
  unfold packR
  refine BitVec.eq_of_getLsbD_eq fun i hi => ?_
  interval_cases i <;> simp only [BitVec.getLsbD_extractLsb', BitVec.getLsbD_append] <;> simp

@[simp] theorem fieldRs_packR (rs rt rd : Reg) (sa : BitVec 5) (fn : BitVec 6) :
    fieldRs (packR rs rt rd sa fn) = rs := by
  unfold fieldRs; rw [packR_bits_rs, regOfBits_bitsOfReg]

@[simp] theorem fieldRt_packR (rs rt rd : Reg) (sa : BitVec 5) (fn : BitVec 6) :
    fieldRt (packR rs rt rd sa fn) = rt := by
  unfold fieldRt; rw [packR_bits_rt, regOfBits_bitsOfReg]

@[simp] theorem fieldRd_packR (rs rt rd : Reg) (sa : BitVec 5) (fn : BitVec 6) :
    fieldRd (packR rs rt rd sa fn) = rd := by
  unfold fieldRd; rw [packR_bits_rd, regOfBits_bitsOfReg]

/-! ## I-format -/

@[simp] theorem fieldOpcode_packI (op : BitVec 6) (rs rt : Reg) (imm : Half) :
    fieldOpcode (packI op rs rt imm) = op := by
  unfold fieldOpcode packI
  refine BitVec.eq_of_getLsbD_eq fun i hi => ?_
  interval_cases i <;> simp only [BitVec.getLsbD_extractLsb', BitVec.getLsbD_append] <;> simp

theorem packI_bits_rs (op : BitVec 6) (rs rt : Reg) (imm : Half) :
    (packI op rs rt imm).extractLsb' 21 5 = bitsOfReg rs := by
  unfold packI
  refine BitVec.eq_of_getLsbD_eq fun i hi => ?_
  interval_cases i <;> simp only [BitVec.getLsbD_extractLsb', BitVec.getLsbD_append] <;> simp

theorem packI_bits_rt (op : BitVec 6) (rs rt : Reg) (imm : Half) :
    (packI op rs rt imm).extractLsb' 16 5 = bitsOfReg rt := by
  unfold packI
  refine BitVec.eq_of_getLsbD_eq fun i hi => ?_
  interval_cases i <;> simp only [BitVec.getLsbD_extractLsb', BitVec.getLsbD_append] <;> simp

@[simp] theorem fieldRs_packI (op : BitVec 6) (rs rt : Reg) (imm : Half) : fieldRs (packI op rs rt imm) = rs := by
  unfold fieldRs; rw [packI_bits_rs, regOfBits_bitsOfReg]

@[simp] theorem fieldRt_packI (op : BitVec 6) (rs rt : Reg) (imm : Half) : fieldRt (packI op rs rt imm) = rt := by
  unfold fieldRt; rw [packI_bits_rt, regOfBits_bitsOfReg]

@[simp] theorem fieldImm_packI (op : BitVec 6) (rs rt : Reg) (imm : Half) : fieldImm (packI op rs rt imm) = imm := by
  unfold fieldImm packI
  refine BitVec.eq_of_getLsbD_eq fun i hi => ?_
  interval_cases i <;> simp only [BitVec.getLsbD_extractLsb', BitVec.getLsbD_append] <;> simp

/-! ## J-format -/

@[simp] theorem fieldOpcode_packJ (op : BitVec 6) (target : BitVec 26) : fieldOpcode (packJ op target) = op := by
  unfold fieldOpcode packJ
  refine BitVec.eq_of_getLsbD_eq fun i hi => ?_
  interval_cases i <;> simp only [BitVec.getLsbD_extractLsb', BitVec.getLsbD_append] <;> simp

@[simp] theorem fieldTarget_packJ (op : BitVec 6) (target : BitVec 26) : fieldTarget (packJ op target) = target := by
  unfold fieldTarget packJ
  refine BitVec.eq_of_getLsbD_eq fun i hi => ?_
  interval_cases i <;> simp only [BitVec.getLsbD_extractLsb', BitVec.getLsbD_append] <;> simp

/-! ## A word as its fields, and a mask field by field -/

/-- Every word is the R-format fields it holds (R61). -/
theorem word_eq_fieldsR (w : Word) :
    w = (fieldOpcode w ++ w.extractLsb' 21 5 ++ w.extractLsb' 16 5 ++ w.extractLsb' 11 5 ++ fieldShamt w ++ fieldFunct w
      : BitVec 32) := by
  unfold fieldOpcode fieldShamt fieldFunct
  refine BitVec.eq_of_getLsbD_eq fun i hi => ?_
  interval_cases i <;> simp only [BitVec.getLsbD_extractLsb', BitVec.getLsbD_append] <;> simp

/-- Every word is the I-format fields it holds (R62). -/
theorem word_eq_fieldsI (w : Word) :
    w = (fieldOpcode w ++ w.extractLsb' 21 5 ++ w.extractLsb' 16 5 ++ fieldImm w : BitVec 32) := by
  unfold fieldOpcode fieldImm
  refine BitVec.eq_of_getLsbD_eq fun i hi => ?_
  interval_cases i <;> simp only [BitVec.getLsbD_extractLsb', BitVec.getLsbD_append] <;> simp

/-- Every word is the J-format fields it holds (R63). -/
theorem word_eq_fieldsJ (w : Word) : w = (fieldOpcode w ++ fieldTarget w : BitVec 32) := by
  unfold fieldOpcode fieldTarget
  refine BitVec.eq_of_getLsbD_eq fun i hi => ?_
  interval_cases i <;> simp only [BitVec.getLsbD_extractLsb', BitVec.getLsbD_append] <;> simp

/-- A mask over the R-format masks each field. -/
theorem and_fieldsR (o : BitVec 6) (a b c d : BitVec 5) (f mo : BitVec 6) (ma mb mc md : BitVec 5) (mf : BitVec 6) :
    ((o ++ a ++ b ++ c ++ d ++ f : BitVec 32) &&& (mo ++ ma ++ mb ++ mc ++ md ++ mf : BitVec 32)) =
      ((o &&& mo) ++ (a &&& ma) ++ (b &&& mb) ++ (c &&& mc) ++ (d &&& md) ++ (f &&& mf) : BitVec 32) := by
  refine BitVec.eq_of_getLsbD_eq fun i hi => ?_
  interval_cases i <;> simp only [BitVec.getLsbD_and, BitVec.getLsbD_append] <;> simp

/-- A mask over the I-format masks each field. -/
theorem and_fieldsI (o : BitVec 6) (a b : BitVec 5) (f : Half) (mo : BitVec 6) (ma mb : BitVec 5) (mf : Half) :
    ((o ++ a ++ b ++ f : BitVec 32) &&& (mo ++ ma ++ mb ++ mf : BitVec 32)) =
      ((o &&& mo) ++ (a &&& ma) ++ (b &&& mb) ++ (f &&& mf) : BitVec 32) := by
  refine BitVec.eq_of_getLsbD_eq fun i hi => ?_
  interval_cases i <;> simp only [BitVec.getLsbD_and, BitVec.getLsbD_append] <;> simp

/-- A field that a mask keeps whole is a field of the masked word. -/
theorem field_of_masked (w m e : Word) (h : w &&& m = e) (lo len : Nat) (hm : m.extractLsb' lo len = BitVec.allOnes len) :
    w.extractLsb' lo len = e.extractLsb' lo len := by
  subst h
  refine BitVec.eq_of_getLsbD_eq fun i hi => ?_
  have hb := congrArg (fun b => b.getLsbD i) hm
  simp only [BitVec.getLsbD_extractLsb', hi, decide_true, Bool.true_and, BitVec.getLsbD_allOnes] at hb
  simp [hi, hb]

/-! ## decode over decodeInstr -/

/-- What `decode` answers is what the two-level lookup finds. -/
theorem decode_known_iff (w : Word) (i : Instr) : decode w = .known i ↔ decodeInstr w = some i := by
  unfold decode
  cases decodeInstr w <;> simp

/-- `decode` answers unknown exactly where the lookup finds nothing, and keeps the word. -/
theorem decode_unknown_iff (w v : Word) : decode w = .unknown v ↔ decodeInstr w = none ∧ v = w := by
  unfold decode
  cases decodeInstr w <;> simp [eq_comm]

/-! ## Bytes -/

/-- Laying a word out as bytes and assembling them again gives the word back, so the byte decoder reads the word. -/
theorem wordOfBytes_wordBytes (w : Word) :
    wordOfBytes (w.extractLsb' 0 8) (w.extractLsb' 8 8) (w.extractLsb' 16 8) (w.extractLsb' 24 8) = w := by
  unfold wordOfBytes
  refine BitVec.eq_of_getLsbD_eq fun i hi => ?_
  interval_cases i <;> simp only [BitVec.getLsbD_extractLsb', BitVec.getLsbD_append] <;> simp

theorem decodeBytes_wordBytes (w : Word) (rest : List Byte) :
    decodeBytes (wordBytes w ++ rest) = some (decode w, rest) := by
  simp only [wordBytes, List.cons_append, List.nil_append, decodeBytes, wordOfBytes_wordBytes]

end Sys2Proof
end

