-- ==== Sys2Proof/Laws/State.lean ====
section
/-!
SUPPORT. One lemma per field per update of State, each true by unfolding once, so that no later proof unfolds a record update.
-/

namespace Sys2Proof.Machine

/-! ## setHi, setLo, setPc: the next snapshot only -/

@[simp] theorem setHi_cur (v : Word) (s : State) : (setHi v s).cur = s.cur := rfl
@[simp] theorem setHi_nxt_gpr (v : Word) (s : State) : (setHi v s).nxt.gpr = s.nxt.gpr := rfl
@[simp] theorem setHi_nxt_hi (v : Word) (s : State) : (setHi v s).nxt.hi = v := rfl
@[simp] theorem setHi_nxt_lo (v : Word) (s : State) : (setHi v s).nxt.lo = s.nxt.lo := rfl
@[simp] theorem setHi_nxt_pc (v : Word) (s : State) : (setHi v s).nxt.pc = s.nxt.pc := rfl
@[simp] theorem setHi_mem (v : Word) (s : State) : (setHi v s).mem = s.mem := rfl
@[simp] theorem setHi_run (v : Word) (s : State) : (setHi v s).run = s.run := rfl
@[simp] theorem setHi_count (v : Word) (s : State) : (setHi v s).count = s.count := rfl
@[simp] theorem setHi_cfg (v : Word) (s : State) : (setHi v s).cfg = s.cfg := rfl

@[simp] theorem setLo_cur (v : Word) (s : State) : (setLo v s).cur = s.cur := rfl
@[simp] theorem setLo_nxt_gpr (v : Word) (s : State) : (setLo v s).nxt.gpr = s.nxt.gpr := rfl
@[simp] theorem setLo_nxt_hi (v : Word) (s : State) : (setLo v s).nxt.hi = s.nxt.hi := rfl
@[simp] theorem setLo_nxt_lo (v : Word) (s : State) : (setLo v s).nxt.lo = v := rfl
@[simp] theorem setLo_nxt_pc (v : Word) (s : State) : (setLo v s).nxt.pc = s.nxt.pc := rfl
@[simp] theorem setLo_mem (v : Word) (s : State) : (setLo v s).mem = s.mem := rfl
@[simp] theorem setLo_run (v : Word) (s : State) : (setLo v s).run = s.run := rfl
@[simp] theorem setLo_count (v : Word) (s : State) : (setLo v s).count = s.count := rfl
@[simp] theorem setLo_cfg (v : Word) (s : State) : (setLo v s).cfg = s.cfg := rfl

@[simp] theorem setPc_cur (v : Word) (s : State) : (setPc v s).cur = s.cur := rfl
@[simp] theorem setPc_nxt_gpr (v : Word) (s : State) : (setPc v s).nxt.gpr = s.nxt.gpr := rfl
@[simp] theorem setPc_nxt_hi (v : Word) (s : State) : (setPc v s).nxt.hi = s.nxt.hi := rfl
@[simp] theorem setPc_nxt_lo (v : Word) (s : State) : (setPc v s).nxt.lo = s.nxt.lo := rfl
@[simp] theorem setPc_nxt_pc (v : Word) (s : State) : (setPc v s).nxt.pc = v := rfl
@[simp] theorem setPc_mem (v : Word) (s : State) : (setPc v s).mem = s.mem := rfl
@[simp] theorem setPc_run (v : Word) (s : State) : (setPc v s).run = s.run := rfl
@[simp] theorem setPc_count (v : Word) (s : State) : (setPc v s).count = s.count := rfl
@[simp] theorem setPc_cfg (v : Word) (s : State) : (setPc v s).cfg = s.cfg := rfl

/-! ## setX -/

@[simp] theorem setX_cur (i : Reg) (v : Word) (s : State) : (setX i v s).cur = s.cur := by
  unfold setX; split <;> rfl

@[simp] theorem setX_nxt_hi (i : Reg) (v : Word) (s : State) : (setX i v s).nxt.hi = s.nxt.hi := by
  unfold setX; split <;> rfl

@[simp] theorem setX_nxt_lo (i : Reg) (v : Word) (s : State) : (setX i v s).nxt.lo = s.nxt.lo := by
  unfold setX; split <;> rfl

@[simp] theorem setX_nxt_pc (i : Reg) (v : Word) (s : State) : (setX i v s).nxt.pc = s.nxt.pc := by
  unfold setX; split <;> rfl

@[simp] theorem setX_mem (i : Reg) (v : Word) (s : State) : (setX i v s).mem = s.mem := by
  unfold setX; split <;> rfl

@[simp] theorem setX_run (i : Reg) (v : Word) (s : State) : (setX i v s).run = s.run := by
  unfold setX; split <;> rfl

@[simp] theorem setX_count (i : Reg) (v : Word) (s : State) : (setX i v s).count = s.count := by
  unfold setX; split <;> rfl

@[simp] theorem setX_cfg (i : Reg) (v : Word) (s : State) : (setX i v s).cfg = s.cfg := by
  unfold setX; split <;> rfl

/-- The next general registers after `x[i] <- v`. -/
theorem setX_nxt_gpr (i : Reg) (v : Word) (s : State) :
    (setX i v s).nxt.gpr = if hardwiredZero s.cfg i then s.nxt.gpr else s.nxt.gpr.set i v := by
  unfold setX; split <;> rfl

/-! ## beginCycle and commit -/

@[simp] theorem beginCycle_cur (s : State) : (beginCycle s).cur = s.cur := rfl
@[simp] theorem beginCycle_nxt_gpr (s : State) : (beginCycle s).nxt.gpr = s.cur.gpr := rfl
@[simp] theorem beginCycle_nxt_hi (s : State) : (beginCycle s).nxt.hi = s.cur.hi := rfl
@[simp] theorem beginCycle_nxt_lo (s : State) : (beginCycle s).nxt.lo = s.cur.lo := rfl
@[simp] theorem beginCycle_nxt_pc (s : State) : (beginCycle s).nxt.pc = pcPlus4 s.cur.pc := rfl
@[simp] theorem beginCycle_mem (s : State) : (beginCycle s).mem = s.mem := rfl
@[simp] theorem beginCycle_run (s : State) : (beginCycle s).run = s.run := rfl
@[simp] theorem beginCycle_count (s : State) : (beginCycle s).count = s.count := rfl
@[simp] theorem beginCycle_cfg (s : State) : (beginCycle s).cfg = s.cfg := rfl

@[simp] theorem commit_cur (h : Bool) (s : State) : (commit h s).cur = s.nxt := rfl
@[simp] theorem commit_nxt (h : Bool) (s : State) : (commit h s).nxt = s.nxt := rfl
@[simp] theorem commit_mem (h : Bool) (s : State) : (commit h s).mem = s.mem := rfl
@[simp] theorem commit_run (h : Bool) (s : State) : (commit h s).run = runAfterCommit h := rfl
@[simp] theorem commit_count (h : Bool) (s : State) : (commit h s).count = s.count + 1 := rfl
@[simp] theorem commit_cfg (h : Bool) (s : State) : (commit h s).cfg = s.cfg := rfl

/-! ## write32 -/

@[simp] theorem write32_cur (a v : Word) (s : State) : (write32 a v s).cur = s.cur := by
  unfold write32; split <;> rfl

@[simp] theorem write32_nxt (a v : Word) (s : State) : (write32 a v s).nxt = s.nxt := by
  unfold write32; split <;> rfl

@[simp] theorem write32_run (a v : Word) (s : State) : (write32 a v s).run = s.run := by
  unfold write32; split <;> rfl

@[simp] theorem write32_count (a v : Word) (s : State) : (write32 a v s).count = s.count := by
  unfold write32; split <;> rfl

@[simp] theorem write32_cfg (a v : Word) (s : State) : (write32 a v s).cfg = s.cfg := by
  unfold write32; split <;> rfl

/-- The memory after `write32(a, v)`. -/
theorem write32_mem (a v : Word) (s : State) :
    (write32 a v s).mem = if mappedIn s.cfg a.toNat then storeWord s.mem a v else s.mem := by
  unfold write32; split <;> rfl

/-! ## withBoth -/

@[simp] theorem withBoth_cur (c : Snapshot) (s : State) : (withBoth c s).cur = c := rfl
@[simp] theorem withBoth_nxt (c : Snapshot) (s : State) : (withBoth c s).nxt = c := rfl
@[simp] theorem withBoth_mem (c : Snapshot) (s : State) : (withBoth c s).mem = s.mem := rfl
@[simp] theorem withBoth_run (c : Snapshot) (s : State) : (withBoth c s).run = s.run := rfl
@[simp] theorem withBoth_count (c : Snapshot) (s : State) : (withBoth c s).count = s.count := rfl
@[simp] theorem withBoth_cfg (c : Snapshot) (s : State) : (withBoth c s).cfg = s.cfg := rfl

end Sys2Proof.Machine
end

