-- ==== Sys2Proof/Laws/Memory.lean ====
section
/-!
SUPPORT. The laws of memory: a read after a write, the canonical form, and the word primitives byte by byte.
-/

namespace Sys2Proof.Machine

/-! ## One byte -/

theorem Memory.read_cons (m : Memory) (a : Nat) (v : Byte) (b : Nat) (h : b ≠ a) :
    (Memory.cons a v m).read b = m.read b := by
  unfold Memory.cons
  split
  · rfl
  · simp [Memory.read, Ne.symm h]

/-- A write leaves every other byte alone, in any memory. -/
theorem Memory.read_write_other (m : Memory) (a : Nat) (v : Byte) (b : Nat) (h : b ≠ a) :
    (m.write a v).read b = m.read b := by
  induction m with
  | nil => exact Memory.read_cons [] a v b h
  | cons c rest ih =>
    obtain ⟨k, w⟩ := c
    simp only [Memory.write]
    split
    · exact Memory.read_cons _ a v b h
    · split
      · next hk => rw [Memory.read_cons _ a v b h]; simp [Memory.read, ← hk, Ne.symm h]
      · simp only [Memory.read]; rw [ih]

/-- A byte below every listed address is not listed. -/
theorem Memory.read_below (m : Memory) (a : Nat) (h : ∀ c ∈ m, a < c.1) : m.read a = 0#8 := by
  induction m with
  | nil => rfl
  | cons c rest ih =>
    obtain ⟨k, w⟩ := c
    have hk : a < k := h (k, w) (by simp)
    simp only [Memory.read, if_neg (show ¬ k = a by omega)]
    exact ih fun c hc => h c (by simp [hc])

/-- In canonical memory a read after a write to the same byte gives the byte written. -/
theorem Memory.read_write_same (m : Memory) (a : Nat) (v : Byte) (hm : m.wf) : (m.write a v).read a = v := by
  induction m with
  | nil => by_cases hv : v = 0#8 <;> simp [Memory.write, Memory.cons, Memory.read, hv]
  | cons c rest ih =>
    obtain ⟨k, w⟩ := c
    obtain ⟨hsort, hcells⟩ := hm
    obtain ⟨hhead, htail⟩ := List.pairwise_cons.mp hsort
    have hrest : Memory.wf rest := ⟨htail, fun c hc => hcells c (by simp [hc])⟩
    simp only [Memory.write]
    split
    · next hlt =>
      by_cases hv : v = 0#8
      · subst hv
        simp only [Memory.cons, if_true]
        refine Memory.read_below _ _ fun c hc => ?_
        rcases List.mem_cons.mp hc with rfl | hc
        · exact hlt
        · exact lt_trans hlt (hhead c hc)
      · simp [Memory.cons, hv, Memory.read]
    · split
      · next hk =>
        by_cases hv : v = 0#8
        · subst hv
          simp only [Memory.cons, if_true]
          exact Memory.read_below _ _ fun c hc => hk ▸ hhead c hc
        · simp [Memory.cons, hv, Memory.read]
      · next hk => simp only [Memory.read, if_neg (Ne.symm hk)]; exact ih hrest

/-- A cell of a written memory is an old one or stands at the address written. -/
theorem Memory.mem_write (m : Memory) (a : Nat) (v : Byte) (c : Host.Cell) (hc : c ∈ m.write a v) :
    c ∈ m ∨ (c = (a, v) ∧ v ≠ 0#8) := by
  have cons_case : ∀ m' : Memory, c ∈ Memory.cons a v m' → c ∈ m' ∨ (c = (a, v) ∧ v ≠ 0#8) := by
    intro m' h
    unfold Memory.cons at h
    split at h
    · exact .inl h
    · next hv =>
      rcases List.mem_cons.mp h with rfl | h
      · exact .inr ⟨rfl, hv⟩
      · exact .inl h
  induction m with
  | nil => exact cons_case [] hc
  | cons d rest ih =>
    obtain ⟨k, w⟩ := d
    simp only [Memory.write] at hc
    split at hc
    · exact cons_case _ hc
    · split at hc
      · exact (cons_case _ hc).imp_left fun h => by simp [h]
      · rcases List.mem_cons.mp hc with rfl | hc
        · exact .inl (by simp)
        · exact (ih hc).imp_left fun h => by simp [h]

theorem Memory.cons_wf (m : Memory) (a : Nat) (v : Byte) (hm : m.wf) (ha : a < 2 ^ 32)
    (hlt : ∀ c ∈ m, a < c.1) : (Memory.cons a v m).wf := by
  unfold Memory.cons
  split
  · exact hm
  · next hv =>
    refine ⟨List.pairwise_cons.mpr ⟨fun c hc => hlt c hc, hm.1⟩, fun c hc => ?_⟩
    rcases List.mem_cons.mp hc with rfl | hc
    · exact ⟨ha, hv⟩
    · exact hm.2 c hc

/-- A byte write keeps the canonical form. -/
theorem Memory.write_wf (m : Memory) (a : Nat) (v : Byte) (hm : m.wf) (ha : a < 2 ^ 32) : (m.write a v).wf := by
  induction m with
  | nil => exact Memory.cons_wf [] a v hm ha (by simp)
  | cons c rest ih =>
    obtain ⟨k, w⟩ := c
    obtain ⟨hsort, hcells⟩ := hm
    obtain ⟨hhead, htail⟩ := List.pairwise_cons.mp hsort
    have hrest : Memory.wf rest := ⟨htail, fun c hc => hcells c (by simp [hc])⟩
    simp only [Memory.write]
    split
    · next hlt =>
      refine Memory.cons_wf _ a v ⟨hsort, hcells⟩ ha fun c hc => ?_
      rcases List.mem_cons.mp hc with rfl | hc
      · exact hlt
      · exact lt_trans hlt (hhead c hc)
    · split
      · next hk => exact Memory.cons_wf rest a v hrest ha fun c hc => hk ▸ hhead c hc
      · next hge hne =>
        obtain ⟨hs, hcs⟩ := ih hrest
        refine ⟨List.pairwise_cons.mpr ⟨fun c hc => ?_, hs⟩, fun c hc => ?_⟩
        · rcases Memory.mem_write rest a v c hc with hc | ⟨rfl, -⟩
          · exact hhead c hc
          · show k < a; omega
        · rcases List.mem_cons.mp hc with rfl | hc
          · exact hcells (k, w) (by simp)
          · exact hcs c hc

/-- Canonical memories that read alike are equal. -/
theorem Memory.ext_of_wf (m n : Memory) (hm : m.wf) (hn : n.wf) (h : ∀ a, m.read a = n.read a) : m = n := by
  induction m generalizing n with
  | nil =>
    cases n with
    | nil => rfl
    | cons d n' =>
      have := h d.1
      simp [Memory.read] at this
      exact absurd this.symm (hn.2 d (by simp)).2
  | cons c m' ih =>
    obtain ⟨hms, hmc⟩ := hm
    obtain ⟨hmh, hmt⟩ := List.pairwise_cons.mp hms
    have hm' : Memory.wf m' := ⟨hmt, fun c hc => hmc c (by simp [hc])⟩
    have hc := (hmc c (by simp)).2
    cases n with
    | nil =>
      have := h c.1
      simp [Memory.read] at this
      exact absurd this hc
    | cons d n' =>
      obtain ⟨hns, hnc⟩ := hn
      obtain ⟨hnh, hnt⟩ := List.pairwise_cons.mp hns
      have hn' : Memory.wf n' := ⟨hnt, fun c hc => hnc c (by simp [hc])⟩
      have hd := (hnc d (by simp)).2
      have below_m : ∀ a, a ≤ c.1 → Memory.read m' a = 0#8 := fun a ha =>
        Memory.read_below _ _ fun e he => lt_of_le_of_lt ha (hmh e he)
      have below_n : ∀ a, a ≤ d.1 → Memory.read n' a = 0#8 := fun a ha =>
        Memory.read_below _ _ fun e he => lt_of_le_of_lt ha (hnh e he)
      have hkey : c.1 = d.1 := by
        rcases lt_trichotomy c.1 d.1 with hlt | heq | hgt
        · have := h c.1
          simp only [Memory.read, if_true, if_neg (show ¬ d.1 = c.1 by omega), below_n c.1 (by omega)] at this
          exact absurd this hc
        · exact heq
        · have := h d.1
          simp only [Memory.read, if_true, if_neg (show ¬ c.1 = d.1 by omega), below_m d.1 (by omega)] at this
          exact absurd this.symm hd
      have hval : c.2 = d.2 := by
        have := h c.1
        simpa [Memory.read, hkey] using this
      have htail : m' = n' := by
        refine ih n' hm' hn' fun a => ?_
        by_cases ha : a ≤ c.1
        · rw [below_m a ha, below_n a (hkey ▸ ha)]
        · have := h a
          simpa only [Memory.read, if_neg (show ¬ c.1 = a by omega), if_neg (show ¬ d.1 = a by omega)] using this
      rw [htail, Prod.ext hkey hval]

/-! ## Four bytes -/

theorem byteKey_lt (addr : Word) (i : Nat) : byteKey addr i < 2 ^ 32 := (addr + BitVec.ofNat 32 i).isLt

theorem byteKey_zero (addr : Word) : byteKey addr 0 = addr.toNat := by simp [byteKey]

/-- The four byte addresses of a word are different, wherever it stands. -/
theorem byteKey_inj (addr : Word) (i j : Nat) (hi : i < 4) (hj : j < 4) (h : byteKey addr i = byteKey addr j) :
    i = j := by
  have hv : BitVec.ofNat 32 i = BitVec.ofNat 32 j := by
    have := BitVec.eq_of_toNat_eq h
    simpa using this
  have := congrArg BitVec.toNat hv
  simp only [BitVec.toNat_ofNat] at this
  omega

/-- Byte `i` of an aligned word stands at the next `i`-th address, with no wrap. -/
theorem byteKey_of_aligned (addr : Word) (i : Nat) (hi : i < 4) (h : addr.toNat % 4 = 0) :
    byteKey addr i = addr.toNat + i := by
  have := addr.isLt
  simp only [byteKey, BitVec.toNat_add, BitVec.toNat_ofNat]
  omega

/-- Storing a word changes no byte outside its four. -/
theorem storeWord_read_other (m : Memory) (addr v : Word) (a : Nat) (h : ∀ i, i < 4 → a ≠ byteKey addr i) :
    (storeWord m addr v).read a = m.read a := by
  unfold storeWord
  rw [Memory.read_write_other _ _ _ _ (h 3 (by omega)), Memory.read_write_other _ _ _ _ (h 2 (by omega)),
    Memory.read_write_other _ _ _ _ (h 1 (by omega)), Memory.read_write_other _ _ _ _ (h 0 (by omega))]

theorem storeWord_wf (m : Memory) (addr v : Word) (hm : m.wf) : (storeWord m addr v).wf := by
  unfold storeWord
  exact Memory.write_wf _ _ _ (Memory.write_wf _ _ _ (Memory.write_wf _ _ _ (Memory.write_wf _ _ _ hm
    (byteKey_lt addr 0)) (byteKey_lt addr 1)) (byteKey_lt addr 2)) (byteKey_lt addr 3)

/-- Byte `i` of a stored word is its bits `8*i+7` down to `8*i` (spec/20_memory.md R46). -/
theorem storeWord_read_byte (m : Memory) (addr v : Word) (i : Nat) (hi : i < 4) (hm : m.wf) :
    (storeWord m addr v).read (byteKey addr i) = v.extractLsb' (8 * i) 8 := by
  have ne : ∀ j k, j < 4 → k < 4 → j ≠ k → byteKey addr j ≠ byteKey addr k := fun j k hj hk hjk h =>
    hjk (byteKey_inj addr j k hj hk h)
  have h0 := Memory.write_wf m (byteKey addr 0) (v.extractLsb' 0 8) hm (byteKey_lt addr 0)
  have h1 := Memory.write_wf _ (byteKey addr 1) (v.extractLsb' 8 8) h0 (byteKey_lt addr 1)
  have h2 := Memory.write_wf _ (byteKey addr 2) (v.extractLsb' 16 8) h1 (byteKey_lt addr 2)
  unfold storeWord
  rcases (by omega : i = 0 ∨ i = 1 ∨ i = 2 ∨ i = 3) with rfl | rfl | rfl | rfl
  · rw [Memory.read_write_other _ _ _ _ (ne 0 3 (by omega) (by omega) (by omega)),
      Memory.read_write_other _ _ _ _ (ne 0 2 (by omega) (by omega) (by omega)),
      Memory.read_write_other _ _ _ _ (ne 0 1 (by omega) (by omega) (by omega)), Memory.read_write_same _ _ _ hm]
  · rw [Memory.read_write_other _ _ _ _ (ne 1 3 (by omega) (by omega) (by omega)),
      Memory.read_write_other _ _ _ _ (ne 1 2 (by omega) (by omega) (by omega)), Memory.read_write_same _ _ _ h0]
  · rw [Memory.read_write_other _ _ _ _ (ne 2 3 (by omega) (by omega) (by omega)), Memory.read_write_same _ _ _ h1]
  · rw [Memory.read_write_same _ _ _ h2]

/-- A cell of memory after a word store is an old one or one of the word's four. -/
theorem storeWord_mem (m : Memory) (addr v : Word) (c : Host.Cell) (hc : c ∈ storeWord m addr v) :
    c ∈ m ∨ ∃ i, i < 4 ∧ c.1 = byteKey addr i := by
  unfold storeWord at hc
  rcases Memory.mem_write _ _ _ _ hc with hc | ⟨rfl, -⟩
  · rcases Memory.mem_write _ _ _ _ hc with hc | ⟨rfl, -⟩
    · rcases Memory.mem_write _ _ _ _ hc with hc | ⟨rfl, -⟩
      · rcases Memory.mem_write _ _ _ _ hc with hc | ⟨rfl, -⟩
        · exact .inl hc
        · exact .inr ⟨0, by omega, rfl⟩
      · exact .inr ⟨1, by omega, rfl⟩
    · exact .inr ⟨2, by omega, rfl⟩
  · exact .inr ⟨3, by omega, rfl⟩

/-! ## Bytes of words -/

/-- Byte lane `i` of an assembled word is its `i`-th byte. -/
theorem wordOfBytes_byte (b0 b1 b2 b3 : Byte) :
    (wordOfBytes b0 b1 b2 b3).extractLsb' 0 8 = b0 ∧ (wordOfBytes b0 b1 b2 b3).extractLsb' 8 8 = b1 ∧
    (wordOfBytes b0 b1 b2 b3).extractLsb' 16 8 = b2 ∧ (wordOfBytes b0 b1 b2 b3).extractLsb' 24 8 = b3 := by
  unfold wordOfBytes
  refine ⟨?_, ?_, ?_, ?_⟩ <;>
    (refine BitVec.eq_of_getLsbD_eq fun i hi => ?_
     interval_cases i <;> simp only [BitVec.getLsbD_extractLsb', BitVec.getLsbD_append] <;> simp)

/-- Words whose four bytes are equal are equal. -/
theorem word_ext_bytes (v w : Word) (h : ∀ i, i < 4 → v.extractLsb' (8 * i) 8 = w.extractLsb' (8 * i) 8) : v = w := by
  rw [← wordOfBytes_wordBytes v, ← wordOfBytes_wordBytes w]
  have h0 := h 0 (by omega)
  have h1 := h 1 (by omega)
  have h2 := h 2 (by omega)
  have h3 := h 3 (by omega)
  simp only [Nat.mul_zero, Nat.mul_one, Nat.reduceMul] at h0 h1 h2 h3
  rw [h0, h1, h2, h3]

end Sys2Proof.Machine
end

