-- ==== Sys2Proof/Laws/Operands.lean ====
section
/-!
SUPPORT. The laws of addresses, byte lanes and regions: what alignment means, the containing word of an address, and that an aligned
word lies wholly inside one region or wholly outside all of them (spec/20_memory.md R42).
-/

namespace Sys2Proof.Machine

/-! ## Targets and values, written out -/

theorem branchTarget_eq (pc : Word) (imm : Half) :
    branchTarget pc imm = pc + 4#32 + (imm.signExtend 32 <<< 2) := rfl

theorem jumpTarget_eq (pc : Word) (target : BitVec 26) :
    jumpTarget pc target = (pc &&& 0xF0000000#32) ||| (target.setWidth 32 <<< 2) := rfl

theorem eaOf_eq (rs : Reg) (imm : Half) (s : State) : eaOf rs imm s = s.x rs + imm.signExtend 32 := rfl

/-- LUI's operand as a number. -/
theorem luiImm_eq (imm : Half) : luiImm imm = BitVec.ofNat 32 (imm.toNat * 2 ^ 16) := by
  have h : (imm ++ 0x0000#16 : BitVec 32).toNat = imm.toNat <<< 16 ||| 0 := BitVec.toNat_append ..
  have := imm.isLt
  apply BitVec.eq_of_toNat_eq
  show (imm ++ 0x0000#16 : BitVec 32).toNat = _
  rw [h]
  simp [Nat.shiftLeft_eq]
  omega

theorem zextImm_eq (imm : Half) : zextImm imm = BitVec.ofNat 32 imm.toNat :=
  BitVec.eq_of_toNat_eq (by simp [zextImm])

theorem sextImm_toInt (imm : Half) : (sextImm imm).toInt = imm.toInt :=
  BitVec.toInt_signExtend_of_le (by omega)

/-! ## Alignment and lanes -/

theorem byteLane_eq (ea : Word) : byteLane ea = ea.toNat % 4 := by
  simp [byteLane, BitVec.extractLsb'_toNat]

theorem byteLane_lt (ea : Word) : byteLane ea < 4 := by
  rw [byteLane_eq]; omega

theorem wordAligned_iff (ea : Word) : wordAligned ea = true ↔ ea.toNat % 4 = 0 := by
  unfold wordAligned
  rw [beq_iff_eq]
  constructor
  · intro h
    have := congrArg BitVec.toNat h
    simpa [BitVec.extractLsb'_toNat] using this
  · intro h
    apply BitVec.eq_of_toNat_eq
    simp [BitVec.extractLsb'_toNat, h]

theorem halfAligned_iff (ea : Word) : halfAligned ea = true ↔ ea.toNat % 2 = 0 := by
  unfold halfAligned
  rw [beq_iff_eq]
  constructor
  · intro h
    have := congrArg BitVec.toNat h
    simpa [BitVec.extractLsb'_toNat] using this
  · intro h
    apply BitVec.eq_of_toNat_eq
    simp [BitVec.extractLsb'_toNat, h]

/-- The containing word starts at the address less its lane. -/
theorem wordAddr_toNat (ea : Word) : (wordAddr ea).toNat = ea.toNat - ea.toNat % 4 := by
  have hm : (0xFFFFFFFC#32 : Word) = ~~~(3#32) := by decide
  have h : wordAddr ea + (ea &&& 3#32) = ea := by
    unfold wordAddr
    rw [hm, BitVec.add_comm, BitVec.add_eq_or_of_and_eq_zero]
    · refine BitVec.eq_of_getLsbD_eq fun i hi => ?_
      simp only [BitVec.getLsbD_or, BitVec.getLsbD_and, BitVec.getLsbD_not, hi, decide_true, Bool.true_and]
      cases ea.getLsbD i <;> cases (3#32).getLsbD i <;> rfl
    · refine BitVec.eq_of_getLsbD_eq fun i hi => ?_
      simp only [BitVec.getLsbD_and, BitVec.getLsbD_not, hi, decide_true, Bool.true_and, BitVec.getLsbD_zero]
      cases ea.getLsbD i <;> cases (3#32).getLsbD i <;> rfl
  have hl : (ea &&& 3#32).toNat = ea.toNat % 4 := by
    rw [BitVec.toNat_and]
    exact Nat.and_two_pow_sub_one_eq_mod ea.toNat 2
  have hs := congrArg BitVec.toNat h
  rw [BitVec.toNat_add, hl] at hs
  have h1 := (wordAddr ea).isLt
  have h2 := ea.isLt
  have h3 : (wordAddr ea).toNat ≤ ea.toNat := by
    unfold wordAddr
    rw [BitVec.toNat_and]
    exact Nat.and_le_left
  omega

theorem wordAddr_aligned (ea : Word) : (wordAddr ea).toNat % 4 = 0 := by
  rw [wordAddr_toNat]; omega

theorem wordAddr_of_aligned (ea : Word) (h : ea.toNat % 4 = 0) : wordAddr ea = ea :=
  BitVec.eq_of_toNat_eq (by rw [wordAddr_toNat]; omega)

/-- The byte at `ea + i` is byte `k + i` from the containing word's start. -/
theorem byteKey_eq_lane (ea : Word) (i : Nat) :
    byteKey ea i = byteKey (wordAddr ea) (byteLane ea + i) := by
  have hk := byteLane_eq ea
  have hw := wordAddr_toNat ea
  have := ea.isLt
  simp only [byteKey, BitVec.toNat_add, BitVec.toNat_ofNat, hw]
  omega

/-! ## Regions -/

/-- Where the regions are well formed the four bytes of an aligned word are all mapped or all unmapped. -/
theorem mappedIn_aligned_of_regions (c : Config) (hr : ∀ r ∈ c.regions, r.wf) (a : Word) (ha : a.toNat % 4 = 0) (i : Nat)
    (hi : i < 4) : mappedIn c (byteKey a i) = mappedIn c a.toNat := by
  rw [byteKey_of_aligned a i hi ha, Bool.eq_iff_iff]
  simp only [mappedIn, List.any_eq_true, regionContains, decide_eq_true_eq]
  constructor
  · rintro ⟨r, hm, h1, h2⟩
    have := hr r hm
    exact ⟨r, hm, by omega, by omega⟩
  · rintro ⟨r, hm, h1, h2⟩
    have := hr r hm
    exact ⟨r, hm, by omega, by omega⟩

/-- In a well-formed configuration the four bytes of an aligned word are all mapped or all unmapped. -/
theorem mappedIn_aligned (c : Config) (hc : c.wf) (a : Word) (ha : a.toNat % 4 = 0) (i : Nat) (hi : i < 4) :
    mappedIn c (byteKey a i) = mappedIn c a.toNat :=
  mappedIn_aligned_of_regions c hc.1 a ha i hi

/-- A byte is mapped exactly when its containing word is. -/
theorem mappedIn_wordAddr (c : Config) (hc : c.wf) (ea : Word) :
    mappedIn c (wordAddr ea).toNat = mappedIn c ea.toNat := by
  have h := mappedIn_aligned c hc (wordAddr ea) (wordAddr_aligned ea) (byteLane ea) (byteLane_lt ea)
  have hk := byteKey_eq_lane ea 0
  rw [Nat.add_zero] at hk
  rw [← h, ← hk, byteKey_zero]

/-! ## Lanes of words -/

/-- Lane `i` of a word with lane `k` replaced (spec/45_load_store.md R179). -/
theorem insertByte_lane (old : Word) (k : Nat) (b : Byte) (hk : k < 4) (i : Nat) (hi : i < 4) :
    (insertByte old k b).extractLsb' (8 * i) 8 = if i = k then b else old.extractLsb' (8 * i) 8 := by
  unfold insertByte
  refine BitVec.eq_of_getLsbD_eq fun j hj => ?_
  interval_cases k <;> interval_cases i <;> interval_cases j <;>
    simp

/-- Lane `i` of a word with the halfword at lane `k` replaced (R179). -/
theorem insertHalf_lane (old : Word) (k : Nat) (h : Half) (hk : k = 0 ∨ k = 2) (i : Nat) (hi : i < 4) :
    (insertHalf old k h).extractLsb' (8 * i) 8 =
      if i = k then h.extractLsb' 0 8 else if i = k + 1 then h.extractLsb' 8 8 else old.extractLsb' (8 * i) 8 := by
  unfold insertHalf
  refine BitVec.eq_of_getLsbD_eq fun j hj => ?_
  rcases hk with rfl | rfl <;> interval_cases i <;> interval_cases j <;>
    simp

theorem byteOfWord_lane (w : Word) (k : Nat) : byteOfWord w k = w.extractLsb' (8 * k) 8 := by
  unfold byteOfWord
  refine BitVec.eq_of_getLsbD_eq fun j hj => ?_
  simp [hj]

/-- A halfword is its two bytes, the second the more significant (R178). -/
theorem halfOfWord_lanes (w : Word) (k : Nat) :
    halfOfWord w k = (w.extractLsb' (8 * (k + 1)) 8 ++ w.extractLsb' (8 * k) 8 : BitVec 16) := by
  unfold halfOfWord
  refine BitVec.eq_of_getLsbD_eq fun j hj => ?_
  interval_cases j <;> simp only [BitVec.getLsbD_extractLsb', BitVec.getLsbD_append] <;> simp [Nat.mul_add, Nat.add_assoc]

end Sys2Proof.Machine
end

