-- ==== Sys2Proof/Laws/Ops.lean ====
section
/-!
SUPPORT. One lemma per shared operation that says everything it does: a proof about an instruction cites the lemma of the operation
its meaning ends in, and unfolds no operation.
-/

namespace Sys2Proof.Machine

/-! ## Registers as observed -/

theorem hardwiredZero_iff (c : Config) (i : Reg) : hardwiredZero c i = true ↔ i = 0 ∧ c.r0Hardwired = true := by
  simp [hardwiredZero]

/-- Two states with the same general registers and configuration show the same registers. -/
theorem x_congr (s t : State) (hg : t.cur.gpr = s.cur.gpr) (hc : t.cfg = s.cfg) (r : Reg) : t.x r = s.x r := by
  simp [State.x, hg, hc]

/-- What the registers show after a cycle whose only register write is `x[d] <- v`. -/
theorem x_of_setX (d : Reg) (v : Word) (s u t : State) (hg : u.nxt.gpr = s.cur.gpr) (hc : u.cfg = s.cfg)
    (ht : t.cur.gpr = (setX d v u).nxt.gpr) (htc : t.cfg = s.cfg) (r : Reg) :
    t.x r = if r = d then (if d = 0 ∧ s.cfg.r0Hardwired = true then 0#32 else v) else s.x r := by
  have hgpr : t.cur.gpr = if hardwiredZero s.cfg d then s.cur.gpr else s.cur.gpr.set d v := by
    rw [ht, setX_nxt_gpr, hc, hg]
  unfold State.x
  rw [htc]
  by_cases hr : r = d
  · subst hr
    rw [if_pos rfl]
    by_cases hz : hardwiredZero s.cfg r = true
    · rw [if_pos hz, if_pos ((hardwiredZero_iff _ _).mp hz)]
    · rw [if_neg hz, if_neg (mt (hardwiredZero_iff _ _).mpr hz), hgpr, if_neg hz]
      simp
  · rw [if_neg hr, hgpr]
    by_cases hz : hardwiredZero s.cfg r = true
    · rw [if_pos hz, if_pos hz]
    · rw [if_neg hz, if_neg hz]
      by_cases hd : hardwiredZero s.cfg d = true
      · rw [if_pos hd]
      · rw [if_neg hd]
        simp only [Fin.getElem_fin]
        rw [Vector.getElem_set_ne]
        exact fun he => hr (Fin.ext he.symm)

/-! ## The ends of a cycle -/

theorem retire_eq (s : State) : retire s = .next (commit false s) := rfl

theorem sameBytes_of_mem (s t : State) (h : t.mem = s.mem) : SameBytes s t := fun a => by rw [h]

theorem retired_commit (s u : State) (hcount : u.count = s.count) (hcfg : u.cfg = s.cfg) :
    Retired s (commit false u) where
  count := by simp [hcount]
  run := rfl
  next := rfl
  cfg := hcfg

/-- `x[d] <- v` and on to `pc + 4`. -/
theorem writesRegister_setX (d : Reg) (v : Word) (s : State) :
    WritesRegister s (commit false (setX d v (beginCycle s))) d v (s.pc + 4#32) where
  retired := retired_commit s _ (by simp) (by simp)
  dest := (x_of_setX d v s (beginCycle s) _ rfl rfl rfl (by simp) d).trans (if_pos rfl)
  others := fun r hr => (x_of_setX d v s (beginCycle s) _ rfl rfl rfl (by simp) r).trans (if_neg hr)
  hi := by simp [State.hi]
  lo := by simp [State.lo]
  pc := by simp [State.pc, pcPlus4]
  bytes := sameBytes_of_mem _ _ (by simp)

/-- `x[d] <- v` and on to a target (JAL, JALR). -/
theorem writesRegister_setPc_setX (d : Reg) (v target : Word) (s : State) :
    WritesRegister s (commit false (setPc target (setX d v (beginCycle s)))) d v target where
  retired := retired_commit s _ (by simp) (by simp)
  dest := (x_of_setX d v s (beginCycle s) _ rfl rfl rfl (by simp) d).trans (if_pos rfl)
  others := fun r hr => (x_of_setX d v s (beginCycle s) _ rfl rfl rfl (by simp) r).trans (if_neg hr)
  hi := by simp [State.hi]
  lo := by simp [State.lo]
  pc := by simp [State.pc]
  bytes := sameBytes_of_mem _ _ (by simp)

/-- HI and LO written, or one of them and the other kept. -/
theorem writesHiLo_setHi_setLo (hi lo : Word) (s : State) :
    WritesHiLo s (commit false (setLo lo (setHi hi (beginCycle s)))) hi lo where
  retired := retired_commit s _ (by simp) (by simp)
  gprs := x_congr s _ (by simp) (by simp)
  hi := by simp [State.hi]
  lo := by simp [State.lo]
  pc := by simp [State.pc, pcPlus4]
  bytes := sameBytes_of_mem _ _ (by simp)

theorem writesHiLo_setHi (hi : Word) (s : State) :
    WritesHiLo s (commit false (setHi hi (beginCycle s))) hi s.lo where
  retired := retired_commit s _ (by simp) (by simp)
  gprs := x_congr s _ (by simp) (by simp)
  hi := by simp [State.hi]
  lo := by simp [State.lo]
  pc := by simp [State.pc, pcPlus4]
  bytes := sameBytes_of_mem _ _ (by simp)

theorem writesHiLo_setLo (lo : Word) (s : State) :
    WritesHiLo s (commit false (setLo lo (beginCycle s))) s.hi lo where
  retired := retired_commit s _ (by simp) (by simp)
  gprs := x_congr s _ (by simp) (by simp)
  hi := by simp [State.hi]
  lo := by simp [State.lo]
  pc := by simp [State.pc, pcPlus4]
  bytes := sameBytes_of_mem _ _ (by simp)

/-- A jump that writes no register. -/
theorem jumpsTo_setPc (target : Word) (s : State) : JumpsTo s (commit false (setPc target (beginCycle s))) target where
  retired := retired_commit s _ (by simp) (by simp)
  regs := { gprs := x_congr s _ (by simp) (by simp), hi := by simp [State.hi], lo := by simp [State.lo] }
  pc := by simp [State.pc]
  bytes := sameBytes_of_mem _ _ (by simp)

/-- A cycle that writes nothing but the pc's advance. -/
theorem jumpsTo_beginCycle (s : State) : JumpsTo s (commit false (beginCycle s)) (s.pc + 4#32) where
  retired := retired_commit s _ (by simp) (by simp)
  regs := { gprs := x_congr s _ (by simp) (by simp), hi := by simp [State.hi], lo := by simp [State.lo] }
  pc := by simp [State.pc, pcPlus4]
  bytes := sameBytes_of_mem _ _ (by simp)

/-- A branch answers the next state whose pc is the target when taken and `pc + 4` otherwise. -/
theorem branchIf_spec (taken : Bool) (imm : Half) (s : State) :
    ∃ t, branchIf taken imm s = .next t ∧ JumpsTo s t (if taken then branchTarget s.pc imm else s.pc + 4#32) := by
  cases taken
  · exact ⟨_, rfl, jumpsTo_beginCycle s⟩
  · exact ⟨_, rfl, jumpsTo_setPc _ s⟩

/-- Taking a fault answers the state that differs in the run state only. -/
theorem raise_spec (f : Fault) (s : State) : ∃ t, raise f s = .next t ∧ TakesFault s t f :=
  ⟨_, rfl, { run := rfl, regs := { gprs := fun _ => rfl, hi := rfl, lo := rfl }, pc := rfl, bytes := fun _ => rfl,
             count := rfl, next := rfl, cfg := rfl }⟩

/-! ## Memory through the word primitives -/

/-- `write32` and a byte of the word written. -/
theorem write32_read_byte (addr v : Word) (s : State) (hm : s.mem.wf) (hmap : mappedIn s.cfg addr.toNat = true)
    (i : Nat) (hi : i < 4) : (write32 addr v s).mem.read (byteKey addr i) = v.extractLsb' (8 * i) 8 := by
  rw [write32_mem, if_pos hmap, storeWord_read_byte _ _ _ _ hi hm]

/-- `write32` and a byte outside the word written. -/
theorem write32_read_other (addr v : Word) (s : State) (a : Nat) (h : ∀ i, i < 4 → a ≠ byteKey addr i) :
    (write32 addr v s).mem.read a = s.mem.read a := by
  rw [write32_mem]
  split
  · exact storeWord_read_other _ _ _ _ h
  · rfl

theorem write32_unmapped (addr v : Word) (s : State) (h : mappedIn s.cfg addr.toNat = false) : write32 addr v s = s := by
  simp [write32, h]

/-- Byte `i` of what `read32` gives for a mapped address (spec/20_memory.md R45). -/
theorem read32_byte (s : State) (addr : Word) (hmap : mappedIn s.cfg addr.toNat = true) (i : Nat) (hi : i < 4) :
    (read32 s addr).extractLsb' (8 * i) 8 = s.mem.read (byteKey addr i) := by
  obtain ⟨h0, h1, h2, h3⟩ := wordOfBytes_byte (s.mem.read (byteKey addr 0)) (s.mem.read (byteKey addr 1))
    (s.mem.read (byteKey addr 2)) (s.mem.read (byteKey addr 3))
  unfold read32
  rw [if_pos hmap]
  rcases (by omega : i = 0 ∨ i = 1 ∨ i = 2 ∨ i = 3) with rfl | rfl | rfl | rfl
  · exact h0
  · exact h1
  · exact h2
  · exact h3

theorem read32_unmapped (s : State) (addr : Word) (h : mappedIn s.cfg addr.toNat = false) : read32 s addr = 0#32 := by
  simp [read32, h]

/-- In canonical memory a word read after a word write at the same mapped address gives the word written. -/
theorem read32_write32 (addr v : Word) (s : State) (hm : s.mem.wf) (hmap : mappedIn s.cfg addr.toNat = true) :
    read32 (write32 addr v s) addr = v :=
  word_ext_bytes _ _ fun i hi => by
    rw [read32_byte _ _ (by simpa using hmap) i hi, write32_read_byte addr v s hm hmap i hi]

/-- `write32` keeps the canonical form. -/
theorem write32_wf (addr v : Word) (s : State) (hm : s.mem.wf) : (write32 addr v s).mem.wf := by
  rw [write32_mem]
  split
  · exact storeWord_wf _ _ _ hm
  · exact hm

/-- `write32` at a multiple of 4 lists no byte outside well-formed regions. -/
theorem write32_mapped_of_regions (addr v : Word) (s : State) (hr : ∀ r ∈ s.cfg.regions, r.wf) (ha : addr.toNat % 4 = 0)
    (hin : ∀ c ∈ s.mem, mappedIn s.cfg c.1 = true) : ∀ c ∈ (write32 addr v s).mem, mappedIn s.cfg c.1 = true := by
  intro c hmem
  rw [write32_mem] at hmem
  split at hmem
  · next hmap =>
    rcases storeWord_mem _ _ _ _ hmem with hmem | ⟨i, hi, heq⟩
    · exact hin c hmem
    · rw [heq, mappedIn_aligned_of_regions _ hr _ ha i hi, hmap]
  · exact hin c hmem

/-- `write32` at a multiple of 4 lists no byte outside the regions. -/
theorem write32_mapped (addr v : Word) (s : State) (hc : s.cfg.wf) (ha : addr.toNat % 4 = 0)
    (hin : ∀ c ∈ s.mem, mappedIn s.cfg c.1 = true) : ∀ c ∈ (write32 addr v s).mem, mappedIn s.cfg c.1 = true :=
  write32_mapped_of_regions addr v s hc.1 ha hin

/-! ## Sub-word access, byte by byte -/

/-- `MemRead(ea, 1)` is the byte at `ea` (spec/45_load_store.md R178). -/
theorem memReadByte_eq (s : State) (hc : s.cfg.wf) (ea : Word) : memReadByte s ea = byteAt s ea.toNat := by
  unfold memReadByte byteAt
  rw [byteOfWord_lane]
  cases hmap : mappedIn s.cfg ea.toNat
  · rw [read32_unmapped _ _ (by rw [mappedIn_wordAddr _ hc, hmap])]
    simp
  · rw [read32_byte _ _ (by rw [mappedIn_wordAddr _ hc, hmap]) _ (byteLane_lt ea), ← Nat.add_zero (byteLane ea),
      ← byteKey_eq_lane, byteKey_zero]
    rfl

/-- `MemRead(ea, 2)` is the two bytes at `ea` and `ea + 1`, the second the more significant (R178). -/
theorem memReadHalf_eq (s : State) (hc : s.cfg.wf) (ea : Word) (he : ea.toNat % 2 = 0) :
    memReadHalf s ea = (byteAt s (byteKey ea 1) ++ byteAt s ea.toNat : BitVec 16) := by
  have hk : byteLane ea + 1 < 4 := by rw [byteLane_eq]; omega
  have h1 : mappedIn s.cfg (byteKey ea 1) = mappedIn s.cfg ea.toNat := by
    rw [byteKey_eq_lane, mappedIn_aligned _ hc _ (wordAddr_aligned ea) _ hk, mappedIn_wordAddr _ hc]
  unfold memReadHalf byteAt
  rw [halfOfWord_lanes, h1]
  cases hmap : mappedIn s.cfg ea.toNat
  · rw [read32_unmapped _ _ (by rw [mappedIn_wordAddr _ hc, hmap])]
    simp
  · have hw : mappedIn s.cfg (wordAddr ea).toNat = true := by rw [mappedIn_wordAddr _ hc, hmap]
    rw [read32_byte _ _ hw _ hk, read32_byte _ _ hw _ (byteLane_lt ea), ← byteKey_eq_lane,
      ← Nat.add_zero (byteLane ea), ← byteKey_eq_lane, byteKey_zero]
    rfl

/-- An address is byte `j` of the containing word of `ea`, or outside it. -/
theorem lane_of_key (ea : Word) (a : Nat) :
    (∃ j, j < 4 ∧ a = byteKey (wordAddr ea) j) ∨ (∀ j, j < 4 → a ≠ byteKey (wordAddr ea) j) := by
  by_cases h : ∃ j, j < 4 ∧ a = byteKey (wordAddr ea) j
  · exact .inl h
  · exact .inr fun j hj he => h ⟨j, hj, he⟩

/-- `MemWrite(ea, 1, b)` stores one byte and leaves every other byte alone (spec/45_load_store.md R179). -/
theorem memWriteByte_read (ea : Word) (b : Byte) (s : State) (hc : s.cfg.wf) (hm : s.mem.wf) (a : Nat) :
    (memWriteByte ea b s).mem.read a =
      if mappedIn s.cfg ea.toNat = true ∧ a = ea.toNat then b else s.mem.read a := by
  unfold memWriteByte
  cases hmap : mappedIn s.cfg ea.toNat
  · rw [write32_unmapped _ _ _ (by rw [mappedIn_wordAddr _ hc, hmap])]
    simp
  · have hw : mappedIn s.cfg (wordAddr ea).toNat = true := by rw [mappedIn_wordAddr _ hc, hmap]
    have hself : ea.toNat = byteKey (wordAddr ea) (byteLane ea) := by
      rw [← Nat.add_zero (byteLane ea), ← byteKey_eq_lane, byteKey_zero]
    rcases lane_of_key ea a with ⟨j, hj, rfl⟩ | hout
    · rw [write32_read_byte _ _ _ hm hw j hj, insertByte_lane _ _ _ (byteLane_lt ea) j hj, read32_byte _ _ hw j hj]
      by_cases hjk : j = byteLane ea
      · subst hjk; simp [← hself]
      · rw [if_neg hjk, if_neg]
        rintro ⟨-, he⟩
        exact hjk (byteKey_inj _ _ _ hj (byteLane_lt ea) (he.trans hself))
    · rw [write32_read_other _ _ _ _ hout, if_neg]
      rintro ⟨-, he⟩
      exact hout _ (byteLane_lt ea) (he.trans hself)

/-- `MemWrite(ea, 2, h)` stores two bytes, bits 7:0 at `ea`, and leaves every other byte alone (R179). -/
theorem memWriteHalf_read (ea : Word) (h : Half) (s : State) (hc : s.cfg.wf) (hm : s.mem.wf) (he : ea.toNat % 2 = 0)
    (a : Nat) :
    (memWriteHalf ea h s).mem.read a =
      if mappedIn s.cfg ea.toNat = true ∧ a = ea.toNat then h.extractLsb' 0 8
      else if mappedIn s.cfg ea.toNat = true ∧ a = byteKey ea 1 then h.extractLsb' 8 8 else s.mem.read a := by
  have hlane : byteLane ea = 0 ∨ byteLane ea = 2 := by rw [byteLane_eq]; omega
  have hk : byteLane ea + 1 < 4 := by omega
  unfold memWriteHalf
  cases hmap : mappedIn s.cfg ea.toNat
  · rw [write32_unmapped _ _ _ (by rw [mappedIn_wordAddr _ hc, hmap])]
    simp
  · have hw : mappedIn s.cfg (wordAddr ea).toNat = true := by rw [mappedIn_wordAddr _ hc, hmap]
    have hself : ea.toNat = byteKey (wordAddr ea) (byteLane ea) := by
      rw [← Nat.add_zero (byteLane ea), ← byteKey_eq_lane, byteKey_zero]
    have hsucc : byteKey ea 1 = byteKey (wordAddr ea) (byteLane ea + 1) := byteKey_eq_lane ea 1
    rcases lane_of_key ea a with ⟨j, hj, rfl⟩ | hout
    · rw [write32_read_byte _ _ _ hm hw j hj, insertHalf_lane _ _ _ hlane j hj, read32_byte _ _ hw j hj, hself, hsucc]
      by_cases h0 : j = byteLane ea
      · subst h0; simp
      · have n0 : byteKey (wordAddr ea) j ≠ byteKey (wordAddr ea) (byteLane ea) := fun hk' =>
          h0 (byteKey_inj _ _ _ hj (byteLane_lt ea) hk')
        rw [if_neg h0]
        by_cases h1 : j = byteLane ea + 1
        · subst h1; simp [n0]
        · have n1 : byteKey (wordAddr ea) j ≠ byteKey (wordAddr ea) (byteLane ea + 1) := fun hk' =>
            h1 (byteKey_inj _ _ _ hj hk hk')
          simp [h1, n0, n1]
    · rw [write32_read_other _ _ _ _ hout, if_neg (fun hh => hout _ (byteLane_lt ea) (hh.2.trans hself)),
        if_neg (fun hh => hout _ hk (hh.2.trans hsucc))]

end Sys2Proof.Machine
end

