-- ==== Sys2Proof/Laws/PerInstr.lean ====
section
/-!
SUPPORT. The per-instruction family OpcodeRow: the word of every instruction is one that its row of the opcode map
(spec/30_encoding.md R66) selects, `(word & mask) = match`.
-/

namespace Sys2Proof

/-- The R-format mask keeps opcode and funct. -/
theorem packR_and_mask (rs rt rd : Reg) (sa : BitVec 5) (fn : BitVec 6) :
    packR rs rt rd sa fn &&& 0xFC00003F#32 = fn.setWidth 32 := by
  unfold packR
  refine BitVec.eq_of_getLsbD_eq fun i hi => ?_
  interval_cases i <;> simp only [BitVec.getLsbD_and, BitVec.getLsbD_append, BitVec.getLsbD_setWidth] <;> simp

/-- The opcode mask keeps the opcode of an I-format word. -/
theorem packI_and_mask (op : BitVec 6) (rs rt : Reg) (imm : Half) :
    packI op rs rt imm &&& 0xFC000000#32 = op ++ 0#26 := by
  unfold packI
  refine BitVec.eq_of_getLsbD_eq fun i hi => ?_
  interval_cases i <;> simp only [BitVec.getLsbD_and, BitVec.getLsbD_append] <;> simp

/-- The REGIMM mask keeps opcode and rt. -/
theorem packI_and_regimm_mask (op : BitVec 6) (rs rt : Reg) (imm : Half) :
    packI op rs rt imm &&& 0xFC1F0000#32 = (op ++ 0#5 ++ bitsOfReg rt ++ 0#16 : BitVec 32) := by
  unfold packI
  refine BitVec.eq_of_getLsbD_eq fun i hi => ?_
  interval_cases i <;> simp only [BitVec.getLsbD_and, BitVec.getLsbD_append] <;> simp

/-- The opcode mask keeps the opcode of a J-format word. -/
theorem packJ_and_mask (op : BitVec 6) (target : BitVec 26) : packJ op target &&& 0xFC000000#32 = op ++ 0#26 := by
  unfold packJ
  refine BitVec.eq_of_getLsbD_eq fun i hi => ?_
  interval_cases i <;> simp only [BitVec.getLsbD_and, BitVec.getLsbD_append] <;> simp

/-- The word of `i` is one its own row of R66 selects. -/
def Laws.OpcodeRow.Statement (i : Instr) : Prop := encode i &&& (opcodeRow i).1 = (opcodeRow i).2

theorem Laws.OpcodeRow.add (rd rs rt : Reg) :
    Laws.OpcodeRow.Statement (.add rd rs rt) :=
  packR_and_mask _ _ _ _ _

theorem Laws.OpcodeRow.addu (rd rs rt : Reg) :
    Laws.OpcodeRow.Statement (.addu rd rs rt) :=
  packR_and_mask _ _ _ _ _

theorem Laws.OpcodeRow.sub (rd rs rt : Reg) :
    Laws.OpcodeRow.Statement (.sub rd rs rt) :=
  packR_and_mask _ _ _ _ _

theorem Laws.OpcodeRow.subu (rd rs rt : Reg) :
    Laws.OpcodeRow.Statement (.subu rd rs rt) :=
  packR_and_mask _ _ _ _ _

theorem Laws.OpcodeRow.addi (rt rs : Reg) (imm : Half) :
    Laws.OpcodeRow.Statement (.addi rt rs imm) :=
  packI_and_mask _ _ _ _

theorem Laws.OpcodeRow.addiu (rt rs : Reg) (imm : Half) :
    Laws.OpcodeRow.Statement (.addiu rt rs imm) :=
  packI_and_mask _ _ _ _

theorem Laws.OpcodeRow.mult (rs rt : Reg) :
    Laws.OpcodeRow.Statement (.mult rs rt) :=
  packR_and_mask _ _ _ _ _

theorem Laws.OpcodeRow.multu (rs rt : Reg) :
    Laws.OpcodeRow.Statement (.multu rs rt) :=
  packR_and_mask _ _ _ _ _

theorem Laws.OpcodeRow.div (rs rt : Reg) :
    Laws.OpcodeRow.Statement (.div rs rt) :=
  packR_and_mask _ _ _ _ _

theorem Laws.OpcodeRow.divu (rs rt : Reg) :
    Laws.OpcodeRow.Statement (.divu rs rt) :=
  packR_and_mask _ _ _ _ _

theorem Laws.OpcodeRow.and (rd rs rt : Reg) :
    Laws.OpcodeRow.Statement (.and rd rs rt) :=
  packR_and_mask _ _ _ _ _

theorem Laws.OpcodeRow.or (rd rs rt : Reg) :
    Laws.OpcodeRow.Statement (.or rd rs rt) :=
  packR_and_mask _ _ _ _ _

theorem Laws.OpcodeRow.xor (rd rs rt : Reg) :
    Laws.OpcodeRow.Statement (.xor rd rs rt) :=
  packR_and_mask _ _ _ _ _

theorem Laws.OpcodeRow.nor (rd rs rt : Reg) :
    Laws.OpcodeRow.Statement (.nor rd rs rt) :=
  packR_and_mask _ _ _ _ _

theorem Laws.OpcodeRow.andi (rt rs : Reg) (imm : Half) :
    Laws.OpcodeRow.Statement (.andi rt rs imm) :=
  packI_and_mask _ _ _ _

theorem Laws.OpcodeRow.ori (rt rs : Reg) (imm : Half) :
    Laws.OpcodeRow.Statement (.ori rt rs imm) :=
  packI_and_mask _ _ _ _

theorem Laws.OpcodeRow.xori (rt rs : Reg) (imm : Half) :
    Laws.OpcodeRow.Statement (.xori rt rs imm) :=
  packI_and_mask _ _ _ _

theorem Laws.OpcodeRow.slt (rd rs rt : Reg) :
    Laws.OpcodeRow.Statement (.slt rd rs rt) :=
  packR_and_mask _ _ _ _ _

theorem Laws.OpcodeRow.slti (rt rs : Reg) (imm : Half) :
    Laws.OpcodeRow.Statement (.slti rt rs imm) :=
  packI_and_mask _ _ _ _

theorem Laws.OpcodeRow.sll (rd rt : Reg) (sa : BitVec 5) :
    Laws.OpcodeRow.Statement (.sll rd rt sa) :=
  packR_and_mask _ _ _ _ _

theorem Laws.OpcodeRow.srl (rd rt : Reg) (sa : BitVec 5) :
    Laws.OpcodeRow.Statement (.srl rd rt sa) :=
  packR_and_mask _ _ _ _ _

theorem Laws.OpcodeRow.sra (rd rt : Reg) (sa : BitVec 5) :
    Laws.OpcodeRow.Statement (.sra rd rt sa) :=
  packR_and_mask _ _ _ _ _

theorem Laws.OpcodeRow.mfhi (rd : Reg) :
    Laws.OpcodeRow.Statement (.mfhi rd) :=
  packR_and_mask _ _ _ _ _

theorem Laws.OpcodeRow.mflo (rd : Reg) :
    Laws.OpcodeRow.Statement (.mflo rd) :=
  packR_and_mask _ _ _ _ _

theorem Laws.OpcodeRow.mthi (rs : Reg) :
    Laws.OpcodeRow.Statement (.mthi rs) :=
  packR_and_mask _ _ _ _ _

theorem Laws.OpcodeRow.mtlo (rs : Reg) :
    Laws.OpcodeRow.Statement (.mtlo rs) :=
  packR_and_mask _ _ _ _ _

theorem Laws.OpcodeRow.lw (rt : Reg) (imm : Half) (rs : Reg) :
    Laws.OpcodeRow.Statement (.lw rt imm rs) :=
  packI_and_mask _ _ _ _

theorem Laws.OpcodeRow.lh (rt : Reg) (imm : Half) (rs : Reg) :
    Laws.OpcodeRow.Statement (.lh rt imm rs) :=
  packI_and_mask _ _ _ _

theorem Laws.OpcodeRow.lb (rt : Reg) (imm : Half) (rs : Reg) :
    Laws.OpcodeRow.Statement (.lb rt imm rs) :=
  packI_and_mask _ _ _ _

theorem Laws.OpcodeRow.sw (rt : Reg) (imm : Half) (rs : Reg) :
    Laws.OpcodeRow.Statement (.sw rt imm rs) :=
  packI_and_mask _ _ _ _

theorem Laws.OpcodeRow.sh (rt : Reg) (imm : Half) (rs : Reg) :
    Laws.OpcodeRow.Statement (.sh rt imm rs) :=
  packI_and_mask _ _ _ _

theorem Laws.OpcodeRow.sb (rt : Reg) (imm : Half) (rs : Reg) :
    Laws.OpcodeRow.Statement (.sb rt imm rs) :=
  packI_and_mask _ _ _ _

theorem Laws.OpcodeRow.lui (rt : Reg) (imm : Half) :
    Laws.OpcodeRow.Statement (.lui rt imm) :=
  packI_and_mask _ _ _ _

theorem Laws.OpcodeRow.j (target : BitVec 26) :
    Laws.OpcodeRow.Statement (.j target) :=
  packJ_and_mask _ _

theorem Laws.OpcodeRow.jal (target : BitVec 26) :
    Laws.OpcodeRow.Statement (.jal target) :=
  packJ_and_mask _ _

theorem Laws.OpcodeRow.jr (rs : Reg) :
    Laws.OpcodeRow.Statement (.jr rs) :=
  packR_and_mask _ _ _ _ _

theorem Laws.OpcodeRow.jalr (rd rs : Reg) :
    Laws.OpcodeRow.Statement (.jalr rd rs) :=
  packR_and_mask _ _ _ _ _

theorem Laws.OpcodeRow.beq (rs rt : Reg) (imm : Half) :
    Laws.OpcodeRow.Statement (.beq rs rt imm) :=
  packI_and_mask _ _ _ _

theorem Laws.OpcodeRow.bne (rs rt : Reg) (imm : Half) :
    Laws.OpcodeRow.Statement (.bne rs rt imm) :=
  packI_and_mask _ _ _ _

theorem Laws.OpcodeRow.blez (rs : Reg) (imm : Half) :
    Laws.OpcodeRow.Statement (.blez rs imm) :=
  packI_and_mask _ _ _ _

theorem Laws.OpcodeRow.bltz (rs : Reg) (imm : Half) :
    Laws.OpcodeRow.Statement (.bltz rs imm) :=
  packI_and_regimm_mask _ _ _ _

theorem Laws.OpcodeRow.bgez (rs : Reg) (imm : Half) :
    Laws.OpcodeRow.Statement (.bgez rs imm) :=
  packI_and_regimm_mask _ _ _ _

theorem Laws.OpcodeRow.bgtz (rs : Reg) (imm : Half) :
    Laws.OpcodeRow.Statement (.bgtz rs imm) :=
  packI_and_mask _ _ _ _

theorem Laws.OpcodeRow.syscall :
    Laws.OpcodeRow.Statement (.syscall) :=
  packR_and_mask _ _ _ _ _

end Sys2Proof
end

