-- ==== Sys2Proof/Laws/Step.lean ====
section
/-!
SUPPORT. What one instruction can do, and what one step can do, each said once: a proof over all instructions or all steps cites these
and unfolds no meaning.
-/

namespace Sys2Proof.Machine

/-! ## The answer of a fault -/

/-- The one state `raise` answers. -/
theorem raise_next (f : Fault) (s t : State) (h : raise f s = .next t) :
    t = { s with nxt := s.cur, run := .halted (.fault f) } := by
  unfold raise at h
  injection h with h
  exact h.symm

/-- A commit never leaves a fault behind it. -/
theorem commit_run_ne_fault (b : Bool) (u : State) (f : Fault) : (commit b u).run ≠ .halted (.fault f) := by
  cases b <;> simp [runAfterCommit]

/-! ## One instruction -/

/-- Everything an instruction can do: raise a fault, or commit a cycle `u` of it, which read the current snapshot, wrote memory only
in a store, HI and LO only in their instructions, and one general register at most. -/
theorem exec_shape (i : Instr) (s : State) :
    (∃ f, exec i s = raise f s) ∨
    (∃ u, exec i s = .next (commit (decide (i = .syscall)) u) ∧
      (u.cur = s.cur ∧ u.count = s.count ∧ u.cfg = s.cfg ∧ (storeTarget i s = none → u.mem = s.mem) ∧
        (writesHi i = false → u.nxt.hi = s.cur.hi) ∧ (writesLo i = false → u.nxt.lo = s.cur.lo)) ∧
      (u.nxt.gpr = s.cur.gpr ∨ ∃ d v, destOf i = some d ∧ u.nxt.gpr = (setX d v (beginCycle s)).nxt.gpr)) := by
  cases i
  all_goals
    first
    | (refine .inr ⟨_, rfl, by simp [memWriteByte, storeTarget, writesHi, writesLo], ?_⟩
       first
       | exact .inr ⟨_, _, rfl, rfl⟩
       | exact .inl rfl
       | (left; simp [memWriteByte]))
    | (simp only [exec, execDiv, execDivu, execLw, execLh, execSw, execSh, execBeq, execBne, execBlez, execBltz,
         execBgez, execBgtz, branchIf]
       repeat' split
       all_goals
        first
        | exact .inl ⟨_, rfl⟩
        | (refine .inr ⟨_, rfl, by simp [memWriteHalf, storeTarget, writesHi, writesLo], ?_⟩
           first
           | exact .inr ⟨_, _, rfl, rfl⟩
           | exact .inl rfl
           | (left; simp [memWriteHalf])))

/-! ## Fetch -/

theorem fetchDecode_eq_ok (s : State) (i : Instr) :
    fetchDecode s = .ok i ↔ s.pc.toNat % 4 = 0 ∧ decode (read32 s s.pc) = .known i := by
  unfold fetchDecode
  by_cases h : wordAligned s.pc = true
  · rw [if_pos h]
    cases decode (read32 s s.pc) <;> simp [(wordAligned_iff _).mp h]
  · rw [if_neg h]
    simp [mt (wordAligned_iff _).mpr h]

theorem fetchDecode_eq_error (s : State) (f : Fault) :
    fetchDecode s = .error f ↔ (s.pc.toNat % 4 ≠ 0 ∧ f = .misalignedFetch s.pc) ∨
      (s.pc.toNat % 4 = 0 ∧ ∃ w, decode (read32 s s.pc) = .unknown w ∧ f = .unsupportedInstruction s.pc w) := by
  unfold fetchDecode
  by_cases h : wordAligned s.pc = true
  · rw [if_pos h]
    cases decode (read32 s s.pc) <;> simp [(wordAligned_iff _).mp h, eq_comm]
  · rw [if_neg h]
    simp [mt (wordAligned_iff _).mpr h, eq_comm]

/-! ## One step -/

/-- Everything a step can do: nothing in `Halted`, the fault of the fetch stage, or the instruction fetched. -/
theorem step_cases (s : State) :
    (isHalted s.run = true ∧ step s = .next s) ∨
    (isHalted s.run = false ∧ ∃ f, fetchDecode s = .error f ∧ step s = raise f s) ∨
    (isHalted s.run = false ∧ ∃ i, fetchDecode s = .ok i ∧ step s = exec i s) := by
  unfold step
  cases isHalted s.run
  · cases fetchDecode s
    · exact .inr (.inl ⟨rfl, _, rfl, rfl⟩)
    · exact .inr (.inr ⟨rfl, _, rfl, rfl⟩)
  · exact .inl ⟨rfl, rfl⟩

/-- `k + 1` steps of the host's core are one step and then `k` (stated over the core's own state type). -/
theorem core_run_succ (s t : Sys2Proof.core.State) (h : Sys2Proof.core.step s = .next t) (k : Nat) :
    Host.Core.run Sys2Proof.core (k + 1) s = Host.Core.run Sys2Proof.core k t := by
  rw [Host.Core.run, h]

/-! ## Loading an image -/

/-- Loading an image changes memory only. -/
theorem loadImage_frame (image : List Word) (base : Word) (s : State) :
    (loadImage base image s).cur = s.cur ∧ (loadImage base image s).nxt = s.nxt ∧ (loadImage base image s).run = s.run ∧
      (loadImage base image s).count = s.count ∧ (loadImage base image s).cfg = s.cfg := by
  induction image generalizing base s with
  | nil => exact ⟨rfl, rfl, rfl, rfl, rfl⟩
  | cons w ws ih => simpa [loadImage] using ih (base + 4#32) (write32 base w s)

/-- Storing words changes memory only. -/
theorem storeWords_frame (ws : List (Word × Word)) (s : State) :
    (storeWords ws s).cur = s.cur ∧ (storeWords ws s).nxt = s.nxt ∧ (storeWords ws s).run = s.run ∧
      (storeWords ws s).count = s.count ∧ (storeWords ws s).cfg = s.cfg := by
  induction ws generalizing s with
  | nil => exact ⟨rfl, rfl, rfl, rfl, rfl⟩
  | cons p rest ih => simpa [storeWords] using ih (write32 (wordAddr p.1) p.2 s)

/-- Storing words keeps the canonical form. -/
theorem storeWords_wf (ws : List (Word × Word)) (s : State) (hm : s.mem.wf) : (storeWords ws s).mem.wf := by
  induction ws generalizing s with
  | nil => exact hm
  | cons p rest ih => exact ih _ (write32_wf _ _ _ hm)

/-- Storing words lists no byte outside well-formed regions. -/
theorem storeWords_mapped (ws : List (Word × Word)) (s : State) (hr : ∀ r ∈ s.cfg.regions, r.wf)
    (hin : ∀ c ∈ s.mem, mappedIn s.cfg c.1 = true) : ∀ c ∈ (storeWords ws s).mem, mappedIn s.cfg c.1 = true := by
  induction ws generalizing s with
  | nil => exact hin
  | cons p rest ih =>
    have h := write32_mapped_of_regions (wordAddr p.1) p.2 s hr (wordAddr_aligned _) hin
    have hrest := ih (write32 (wordAddr p.1) p.2 s) (by simpa using hr) (by simpa using h)
    rw [write32_cfg] at hrest
    exact hrest

/-- Everything `reset` does: what initialize does, and words written to memory (an image, none, or words nothing constrains). -/
theorem hostReset_cases (image : List Word) (s : State) :
    (s.cfg.textBase.toNat % 4 = 0 ∧ hostReset image s = loadImage s.cfg.textBase image (hostInitialize s)) ∨
    (s.cfg.textBase.toNat % 4 ≠ 0 ∧ image = [] ∧ hostReset image s = hostInitialize s) ∨
    (s.cfg.textBase.toNat % 4 ≠ 0 ∧ image ≠ [] ∧
      hostReset image s = storeWords (Config.misalignedImage s image) (hostInitialize s)) := by
  unfold hostReset
  by_cases h : wordAligned s.cfg.textBase = true
  · rw [if_pos h]
    exact .inl ⟨(wordAligned_iff _).mp h, rfl⟩
  · rw [if_neg h]
    have ha := mt (wordAligned_iff _).mpr h
    cases image
    · exact .inr (.inl ⟨ha, rfl, rfl⟩)
    · exact .inr (.inr ⟨ha, by simp, rfl⟩)

/-! ## The value written to the destination -/

/-- An instruction that commits shows the value it computes in its destination, but for a hard-wired register 0. -/
theorem exec_dest (i : Instr) (s t : State) (d : Reg) (hd : destOf i = some d) (h : exec i s = .next t) :
    (∃ f, t = { s with nxt := s.cur, run := .halted (.fault f) }) ∨
      t.x d = if d = 0 ∧ s.cfg.r0Hardwired = true then 0#32 else resultOf i s := by
  cases i <;> simp only [destOf, Option.some.injEq, reduceCtorEq] at hd
  all_goals
    subst hd
    first
    | (injection h with h
       subst h
       first
       | exact .inr (writesRegister_setX _ _ s).dest
       | exact .inr (writesRegister_setPc_setX _ _ _ s).dest
       | (refine .inr ((writesRegister_setX _ _ s).dest.trans ?_)
          simp [resultOf, setOnLess, signedLess, sextImm_toInt]))
    | (simp only [exec, execLw, execLh] at h
       split at h
       · injection h with h
         subst h
         exact .inr (writesRegister_setX _ _ s).dest
       · exact .inl ⟨_, raise_next _ _ _ h⟩)

end Sys2Proof.Machine
end

