-- ==== Sys2Proof/Tests/Slice0.lean ====
section
/-!
SUPPORT. The model's own tests: well-formedness, decoding, one step at a time, and a witness for the hypotheses of every obligation.
Expected results come from spec/95_test_vectors.md (section 1 the source's own properties, section 2 the derived vectors) or are worked
out by hand from the rule a comment names. The words of the decode tests are written field by field from spec/30_encoding.md R61 to R66.
-/

namespace Sys2Proof.Tests

open Sys2Proof.Machine

/-! ## Helpers -/

/-- The outcome is a next state of which `p` holds. -/
def nextHolds (o : Host.Outcome State Fault Refusal) (p : State → Bool) : Bool :=
  match o with
  | .next t => p t
  | .fault _ => false
  | .refused _ => false

theorem exists_of_nextHolds (o : Host.Outcome State Fault Refusal) (p : State → Prop) [DecidablePred p]
    (h : nextHolds o (fun t => decide (p t)) = true) : ∃ t, o = .next t ∧ p t := by
  cases o with
  | next t => exact ⟨t, rfl, of_decide_eq_true h⟩
  | fault f => cases h
  | refused r => cases h

/-- The configuration of spec/95_test_vectors.md section 0, with the two Booleans given. -/
def config (r0 ovf : Bool) : Config := { Config.exampleConfig with r0Hardwired := r0, divOverflowFaults := ovf }

/-- A core between cycles with these registers set, this HI, LO and pc, and these words stored. -/
def coreWith (c : Config) (regs : List (Reg × Word)) (hi lo pc : Word) (words : List (Word × Word)) : State :=
  words.foldl (fun s p => write32 p.1 p.2 s)
    (withBoth { gpr := regs.foldl (fun g p => g.set p.1 p.2) (Vector.replicate 32 0#32), hi := hi, lo := lo, pc := pc }
      (State.initialize c))

/-- The start state of spec/95_test_vectors.md section 2 with these registers set. -/
def start (regs : List (Reg × Word)) : State := coreWith (config true true) regs 0#32 0#32 0x00400000#32 []

/-- The same at the pc of the branch rows. -/
def startBranch (regs : List (Reg × Word)) : State := coreWith (config true true) regs 0#32 0#32 0x00400010#32 []

/-- The same with HI and LO set. -/
def startHiLo (regs : List (Reg × Word)) (hi lo : Word) : State := coreWith (config true true) regs hi lo 0x00400000#32 []

/-- The same with the word `v` at 0x10010000. -/
def startData (regs : List (Reg × Word)) (v : Word) : State :=
  coreWith (config true true) regs 0#32 0#32 0x00400000#32 [(0x10010000#32, v)]

/-- One step that fetches the word `w` where the state's pc points. -/
def runs (s : State) (w : Nat) (p : State → Bool) : Bool := nextHolds (step (s.withFetchWord 32 w)) p

/-- The word the vectors store at 0x10010000. -/
def dataWord (t : State) : Word := read32 t 0x10010000#32

/-! ## Well-formedness: one ill-formed configuration for each check -/

/-- A configuration with these regions and this base. -/
def layout (regions : List Region) (base : Word) : Config := { Config.exampleConfig with regions := regions, textBase := base }

theorem test_wf_example : Config.exampleConfig.wf := by decide
theorem test_wf_top_region : (layout [⟨"top", 0xFFFFF000#32, 0xFFFFFFFF#32⟩] 0xFFFFF000#32).wf := by decide
theorem test_wf_no_region : (layout [] 0x00000000#32).wf := by decide
theorem test_wf_refuses_begin_after_end : ¬ (layout [⟨"a", 0x00001000#32, 0x00000FFF#32⟩] 0#32).wf := by decide
theorem test_wf_refuses_begin_misaligned : ¬ (layout [⟨"a", 0x00000002#32, 0x00000FFF#32⟩] 0#32).wf := by decide
theorem test_wf_refuses_end_misaligned : ¬ (layout [⟨"a", 0x00000000#32, 0x00000FFE#32⟩] 0#32).wf := by decide
theorem test_wf_refuses_overlap :
    ¬ (layout [⟨"a", 0x00000000#32, 0x00000FFF#32⟩, ⟨"b", 0x00000FFC#32, 0x00001FFF#32⟩] 0#32).wf := by decide
theorem test_wf_refuses_base_misaligned : ¬ (layout [] 0x00400002#32).wf := by decide

/-- A memory that lists addresses out of order, one twice, a zero byte, or an address past 32 bits is not canonical. -/
theorem test_memory_wf_refuses :
    ¬ Memory.wf [(8, 1#8), (4, 1#8)] ∧ ¬ Memory.wf [(4, 1#8), (4, 2#8)] ∧ ¬ Memory.wf [(4, 0#8)] ∧
      ¬ Memory.wf [(2 ^ 32, 1#8)] ∧ Memory.wf [(4, 1#8), (8, 2#8)] := by decide

/-! ## Decoding: every constructor's word, written field by field (R61, R62, R63, R66; unused fields zero) -/

theorem test_decode_add :
    decode (0b000000#6 ++ 0b10001#5 ++ 0b01100#5 ++ 0b11011#5 ++ 0b00000#5 ++ 0b100000#6 : BitVec 32) = .known (.add 27 17 12) := by decide
theorem test_decode_addu :
    decode (0b000000#6 ++ 0b10001#5 ++ 0b01100#5 ++ 0b11011#5 ++ 0b00000#5 ++ 0b100001#6 : BitVec 32) = .known (.addu 27 17 12) := by decide
theorem test_decode_sub :
    decode (0b000000#6 ++ 0b10001#5 ++ 0b01100#5 ++ 0b11011#5 ++ 0b00000#5 ++ 0b100010#6 : BitVec 32) = .known (.sub 27 17 12) := by decide
theorem test_decode_subu :
    decode (0b000000#6 ++ 0b10001#5 ++ 0b01100#5 ++ 0b11011#5 ++ 0b00000#5 ++ 0b100011#6 : BitVec 32) = .known (.subu 27 17 12) := by decide
theorem test_decode_and :
    decode (0b000000#6 ++ 0b10001#5 ++ 0b01100#5 ++ 0b11011#5 ++ 0b00000#5 ++ 0b100100#6 : BitVec 32) = .known (.and 27 17 12) := by decide
theorem test_decode_or :
    decode (0b000000#6 ++ 0b10001#5 ++ 0b01100#5 ++ 0b11011#5 ++ 0b00000#5 ++ 0b100101#6 : BitVec 32) = .known (.or 27 17 12) := by decide
theorem test_decode_xor :
    decode (0b000000#6 ++ 0b10001#5 ++ 0b01100#5 ++ 0b11011#5 ++ 0b00000#5 ++ 0b100110#6 : BitVec 32) = .known (.xor 27 17 12) := by decide
theorem test_decode_nor :
    decode (0b000000#6 ++ 0b10001#5 ++ 0b01100#5 ++ 0b11011#5 ++ 0b00000#5 ++ 0b100111#6 : BitVec 32) = .known (.nor 27 17 12) := by decide
theorem test_decode_slt :
    decode (0b000000#6 ++ 0b10001#5 ++ 0b01100#5 ++ 0b11011#5 ++ 0b00000#5 ++ 0b101010#6 : BitVec 32) = .known (.slt 27 17 12) := by decide
theorem test_decode_sll :
    decode (0b000000#6 ++ 0b00000#5 ++ 0b01100#5 ++ 0b11011#5 ++ 0b10101#5 ++ 0b000000#6 : BitVec 32) = .known (.sll 27 12 21#5) := by decide
theorem test_decode_srl :
    decode (0b000000#6 ++ 0b00000#5 ++ 0b01100#5 ++ 0b11011#5 ++ 0b10101#5 ++ 0b000010#6 : BitVec 32) = .known (.srl 27 12 21#5) := by decide
theorem test_decode_sra :
    decode (0b000000#6 ++ 0b00000#5 ++ 0b01100#5 ++ 0b11011#5 ++ 0b10101#5 ++ 0b000011#6 : BitVec 32) = .known (.sra 27 12 21#5) := by decide
theorem test_decode_mult :
    decode (0b000000#6 ++ 0b10001#5 ++ 0b01100#5 ++ 0b00000#5 ++ 0b00000#5 ++ 0b011000#6 : BitVec 32) = .known (.mult 17 12) := by decide
theorem test_decode_multu :
    decode (0b000000#6 ++ 0b10001#5 ++ 0b01100#5 ++ 0b00000#5 ++ 0b00000#5 ++ 0b011001#6 : BitVec 32) = .known (.multu 17 12) := by decide
theorem test_decode_div :
    decode (0b000000#6 ++ 0b10001#5 ++ 0b01100#5 ++ 0b00000#5 ++ 0b00000#5 ++ 0b011010#6 : BitVec 32) = .known (.div 17 12) := by decide
theorem test_decode_divu :
    decode (0b000000#6 ++ 0b10001#5 ++ 0b01100#5 ++ 0b00000#5 ++ 0b00000#5 ++ 0b011011#6 : BitVec 32) = .known (.divu 17 12) := by decide
theorem test_decode_mfhi :
    decode (0b000000#6 ++ 0b00000#5 ++ 0b00000#5 ++ 0b11011#5 ++ 0b00000#5 ++ 0b010000#6 : BitVec 32) = .known (.mfhi 27) := by decide
theorem test_decode_mflo :
    decode (0b000000#6 ++ 0b00000#5 ++ 0b00000#5 ++ 0b11011#5 ++ 0b00000#5 ++ 0b010010#6 : BitVec 32) = .known (.mflo 27) := by decide
theorem test_decode_mthi :
    decode (0b000000#6 ++ 0b10001#5 ++ 0b00000#5 ++ 0b00000#5 ++ 0b00000#5 ++ 0b010001#6 : BitVec 32) = .known (.mthi 17) := by decide
theorem test_decode_mtlo :
    decode (0b000000#6 ++ 0b10001#5 ++ 0b00000#5 ++ 0b00000#5 ++ 0b00000#5 ++ 0b010011#6 : BitVec 32) = .known (.mtlo 17) := by decide
theorem test_decode_jr :
    decode (0b000000#6 ++ 0b10001#5 ++ 0b00000#5 ++ 0b00000#5 ++ 0b00000#5 ++ 0b001000#6 : BitVec 32) = .known (.jr 17) := by decide
theorem test_decode_jalr :
    decode (0b000000#6 ++ 0b10001#5 ++ 0b00000#5 ++ 0b11011#5 ++ 0b00000#5 ++ 0b001001#6 : BitVec 32) = .known (.jalr 27 17) := by decide
theorem test_decode_syscall :
    decode (0b000000#6 ++ 0b00000#5 ++ 0b00000#5 ++ 0b00000#5 ++ 0b00000#5 ++ 0b001100#6 : BitVec 32) = .known (.syscall) := by decide
theorem test_decode_addi :
    decode (0b001000#6 ++ 0b10001#5 ++ 0b01100#5 ++ 0b1001101000110101#16 : BitVec 32) = .known (.addi 12 17 0x9A35#16) := by decide
theorem test_decode_addiu :
    decode (0b001001#6 ++ 0b10001#5 ++ 0b01100#5 ++ 0b1001101000110101#16 : BitVec 32) = .known (.addiu 12 17 0x9A35#16) := by decide
theorem test_decode_slti :
    decode (0b001010#6 ++ 0b10001#5 ++ 0b01100#5 ++ 0b1001101000110101#16 : BitVec 32) = .known (.slti 12 17 0x9A35#16) := by decide
theorem test_decode_andi :
    decode (0b001100#6 ++ 0b10001#5 ++ 0b01100#5 ++ 0b1001101000110101#16 : BitVec 32) = .known (.andi 12 17 0x9A35#16) := by decide
theorem test_decode_ori :
    decode (0b001101#6 ++ 0b10001#5 ++ 0b01100#5 ++ 0b1001101000110101#16 : BitVec 32) = .known (.ori 12 17 0x9A35#16) := by decide
theorem test_decode_xori :
    decode (0b001110#6 ++ 0b10001#5 ++ 0b01100#5 ++ 0b1001101000110101#16 : BitVec 32) = .known (.xori 12 17 0x9A35#16) := by decide
theorem test_decode_lui :
    decode (0b001111#6 ++ 0b00000#5 ++ 0b01100#5 ++ 0b1001101000110101#16 : BitVec 32) = .known (.lui 12 0x9A35#16) := by decide
theorem test_decode_lb :
    decode (0b100000#6 ++ 0b10001#5 ++ 0b01100#5 ++ 0b1001101000110101#16 : BitVec 32) = .known (.lb 12 0x9A35#16 17) := by decide
theorem test_decode_lh :
    decode (0b100001#6 ++ 0b10001#5 ++ 0b01100#5 ++ 0b1001101000110101#16 : BitVec 32) = .known (.lh 12 0x9A35#16 17) := by decide
theorem test_decode_lw :
    decode (0b100011#6 ++ 0b10001#5 ++ 0b01100#5 ++ 0b1001101000110101#16 : BitVec 32) = .known (.lw 12 0x9A35#16 17) := by decide
theorem test_decode_sb :
    decode (0b101000#6 ++ 0b10001#5 ++ 0b01100#5 ++ 0b1001101000110101#16 : BitVec 32) = .known (.sb 12 0x9A35#16 17) := by decide
theorem test_decode_sh :
    decode (0b101001#6 ++ 0b10001#5 ++ 0b01100#5 ++ 0b1001101000110101#16 : BitVec 32) = .known (.sh 12 0x9A35#16 17) := by decide
theorem test_decode_sw :
    decode (0b101011#6 ++ 0b10001#5 ++ 0b01100#5 ++ 0b1001101000110101#16 : BitVec 32) = .known (.sw 12 0x9A35#16 17) := by decide
theorem test_decode_beq :
    decode (0b000100#6 ++ 0b10001#5 ++ 0b01100#5 ++ 0b1001101000110101#16 : BitVec 32) = .known (.beq 17 12 0x9A35#16) := by decide
theorem test_decode_bne :
    decode (0b000101#6 ++ 0b10001#5 ++ 0b01100#5 ++ 0b1001101000110101#16 : BitVec 32) = .known (.bne 17 12 0x9A35#16) := by decide
theorem test_decode_blez :
    decode (0b000110#6 ++ 0b10001#5 ++ 0b00000#5 ++ 0b1001101000110101#16 : BitVec 32) = .known (.blez 17 0x9A35#16) := by decide
theorem test_decode_bgtz :
    decode (0b000111#6 ++ 0b10001#5 ++ 0b00000#5 ++ 0b1001101000110101#16 : BitVec 32) = .known (.bgtz 17 0x9A35#16) := by decide
theorem test_decode_bltz :
    decode (0b000001#6 ++ 0b10001#5 ++ 0b00000#5 ++ 0b1001101000110101#16 : BitVec 32) = .known (.bltz 17 0x9A35#16) := by decide
theorem test_decode_bgez :
    decode (0b000001#6 ++ 0b10001#5 ++ 0b00001#5 ++ 0b1001101000110101#16 : BitVec 32) = .known (.bgez 17 0x9A35#16) := by decide
theorem test_decode_j :
    decode (0b000010#6 ++ 0b10101101011100000011100011#26 : BitVec 32) = .known (.j 0x2B5C0E3#26) := by decide
theorem test_decode_jal :
    decode (0b000011#6 ++ 0b10101101011100000011100011#26 : BitVec 32) = .known (.jal 0x2B5C0E3#26) := by decide

/-- Unused fields are ignored (spec/92_eei_decisions.md D12): ADD with shamt 5, SLL with rs set, JR with rt, rd and shamt set, LUI with rs
set, BLEZ with rt set, SYSCALL with its code bits set. -/
theorem test_decode_ignores_unused_fields :
    decode 0x01095160#32 = .known (.add 10 8 9) ∧ decode 0x03E957C0#32 = .known (.sll 10 9 31#5) ∧
      decode 0x011FFFC8#32 = .known (.jr 8) ∧ decode 0x3FE8FFFF#32 = .known (.lui 8 0xFFFF#16) ∧
      decode 0x191F0003#32 = .known (.blez 8 0x0003#16) ∧ decode 0x03FFFFCC#32 = .known .syscall := by decide

/-- R67: the unlisted words nearest to listed ones decode to unknown, at each end of each range. -/
theorem test_decode_unknown_boundaries :
    decode 0x2C000000#32 = .unknown 0x2C000000#32 ∧ decode 0x40000000#32 = .unknown 0x40000000#32 ∧
      decode 0x7C000000#32 = .unknown 0x7C000000#32 ∧ decode 0x88000000#32 = .unknown 0x88000000#32 ∧
      decode 0xA8000000#32 = .unknown 0xA8000000#32 ∧ decode 0xB0000000#32 = .unknown 0xB0000000#32 ∧
      decode 0xFC000000#32 = .unknown 0xFC000000#32 ∧ decode 0x0109502B#32 = .unknown 0x0109502B#32 ∧
      decode 0x0000003F#32 = .unknown 0x0000003F#32 ∧ decode 0x04020000#32 = .unknown 0x04020000#32 ∧
      decode 0x05100003#32 = .unknown 0x05100003#32 := by decide

theorem test_decode_bytes :
    decodeBytes [0x20#8, 0x50#8, 0x09#8, 0x01#8, 0xAA#8] = some (.known (.add 10 8 9), [0xAA#8]) ∧
      decodeBytes [0x20#8, 0x50#8, 0x09#8] = none := by decide
theorem test_decode_table_word :
    decodeTableWord 32 0x01095020 = some (.add 10 8 9) ∧ decodeTableWord 32 0x0000000D = none := by decide
theorem test_encode_writes_zeros : encode (.jr 31) = 0x03E00008#32 ∧ encode (.lui 8 0xDEAD#16) = 0x3C08DEAD#32 := by decide

/-! ## One step each (spec/95_test_vectors.md section 2, unless a comment says otherwise) -/

theorem test_add_no_trap :
    runs (start [(8, 0x7FFFFFFF#32), (9, 0x00000001#32)]) 0x01095020
        (fun t => t.x 10 == 0x80000000#32 && t.pc == 0x00400004#32 && t.count == 1) = true ∧
      runs (start [(8, 0x40000000#32)]) 0x01084020 (fun t => t.x 8 == 0x80000000#32) = true := by decide
theorem test_addu_wraps :
    runs (start [(8, 0x80000000#32), (9, 0x80000000#32)]) 0x01095021
      (fun t => t.x 10 == 0x00000000#32) = true := by decide
theorem test_sub_no_trap :
    runs (start [(8, 0x80000000#32), (9, 0x00000001#32)]) 0x01095022
      (fun t => t.x 10 == 0x7FFFFFFF#32) = true := by decide
theorem test_sub_borrow : runs (start [(9, 0x00000001#32)]) 0x01095022 (fun t => t.x 10 == 0xFFFFFFFF#32) = true := by decide
theorem test_subu_self : runs (start [(8, 0x12345678#32)]) 0x01085023 (fun t => t.x 10 == 0x00000000#32) = true := by decide
theorem test_addi_sign_extends : runs (start []) 0x21098000 (fun t => t.x 9 == 0xFFFF8000#32) = true := by decide
theorem test_addi_no_trap : runs (start [(8, 0x7FFFFFFF#32)]) 0x21090001 (fun t => t.x 9 == 0x80000000#32) = true := by decide
theorem test_addiu_wraps : runs (start [(8, 0xFFFF8001#32)]) 0x25097FFF (fun t => t.x 9 == 0x00000000#32) = true := by decide
theorem test_mult_minus_one :
    runs (start [(8, 0xFFFFFFFF#32), (9, 0x00000001#32)]) 0x01090018
      (fun t => t.hi == 0xFFFFFFFF#32 && t.lo == 0xFFFFFFFF#32) = true := by decide
theorem test_mult_smallest :
    runs (start [(8, 0x80000000#32), (9, 0x80000000#32)]) 0x01090018
      (fun t => t.hi == 0x40000000#32 && t.lo == 0x00000000#32) = true := by decide
theorem test_multu_largest :
    runs (start [(8, 0xFFFFFFFF#32), (9, 0xFFFFFFFF#32)]) 0x01090019
      (fun t => t.hi == 0xFFFFFFFE#32 && t.lo == 0x00000001#32) = true := by decide
theorem test_div_signs :
    runs (start [(8, 0xFFFFFFF9#32), (9, 0x00000002#32)]) 0x0109001A (fun t => t.hi == 0xFFFFFFFF#32 && t.lo == 0xFFFFFFFD#32) = true ∧
      runs (start [(8, 0x00000007#32), (9, 0xFFFFFFFE#32)]) 0x0109001A (fun t => t.hi == 0x00000001#32 && t.lo == 0xFFFFFFFD#32) = true := by
  decide
theorem test_divu_large_divisor :
    runs (start [(8, 0x80000000#32), (9, 0xFFFFFFFF#32)]) 0x0109001B
      (fun t => t.hi == 0x80000000#32 && t.lo == 0x00000000#32) = true := by decide
theorem test_divu_remainder :
    runs (start [(8, 0x00000064#32), (9, 0x00000007#32)]) 0x0109001B
      (fun t => t.hi == 0x00000002#32 && t.lo == 0x0000000E#32) = true := by decide
theorem test_and :
    runs (start [(8, 0xF0F0F0F0#32), (9, 0xFF00FF00#32)]) 0x01095024
      (fun t => t.x 10 == 0xF000F000#32) = true := by decide
theorem test_or_is_bitwise :
    runs (start [(8, 0x00000002#32), (9, 0x00000004#32)]) 0x01095025
      (fun t => t.x 10 == 0x00000006#32) = true := by decide
theorem test_xor_self : runs (start [(8, 0xDEADBEEF#32)]) 0x01085026 (fun t => t.x 10 == 0x00000000#32) = true := by decide
theorem test_nor_zero : runs (start []) 0x00005027 (fun t => t.x 10 == 0xFFFFFFFF#32) = true := by decide
theorem test_andi_zero_extends : runs (start [(8, 0xFFFFFFFF#32)]) 0x3109FFFF (fun t => t.x 9 == 0x0000FFFF#32) = true := by decide
theorem test_ori_zero_extends : runs (start []) 0x35098000 (fun t => t.x 9 == 0x00008000#32) = true := by decide
theorem test_xori : runs (start [(8, 0x12345678#32)]) 0x3909FFFF (fun t => t.x 9 == 0x1234A987#32) = true := by decide
theorem test_slt_is_signed :
    runs (start [(8, 0x80000000#32), (9, 0x7FFFFFFF#32)]) 0x0109502A
      (fun t => t.x 10 == 0x00000001#32) = true := by decide
theorem test_slt_equal : runs (start [(8, 0x00000005#32)]) 0x0108502A (fun t => t.x 10 == 0x00000000#32) = true := by decide
theorem test_slti_equal : runs (start [(8, 0xFFFF8000#32)]) 0x29098000 (fun t => t.x 9 == 0x00000000#32) = true := by decide
theorem test_slti_sign_extends : runs (start [(8, 0xFFFF7FFF#32)]) 0x29098000 (fun t => t.x 9 == 0x00000001#32) = true := by decide
theorem test_sll_by_31 : runs (start [(9, 0x00000003#32)]) 0x000957C0 (fun t => t.x 10 == 0x80000000#32) = true := by decide
theorem test_sll_by_0 : runs (start [(9, 0x89ABCDEF#32)]) 0x00095000 (fun t => t.x 10 == 0x89ABCDEF#32) = true := by decide
theorem test_srl_by_31 : runs (start [(9, 0x80000000#32)]) 0x000957C2 (fun t => t.x 10 == 0x00000001#32) = true := by decide
theorem test_sra_by_31 : runs (start [(9, 0x80000000#32)]) 0x000957C3 (fun t => t.x 10 == 0xFFFFFFFF#32) = true := by decide
theorem test_sra_by_0 : runs (start [(9, 0x80000000#32)]) 0x00095003 (fun t => t.x 10 == 0x80000000#32) = true := by decide
theorem test_mfhi : runs (startHiLo [] 0xAAAA5555#32 0x00000001#32) 0x00005010 (fun t => t.x 10 == 0xAAAA5555#32) = true := by decide
theorem test_mflo : runs (startHiLo [] 0x00000001#32 0x12345678#32) 0x00005012 (fun t => t.x 10 == 0x12345678#32) = true := by decide
theorem test_mthi_keeps_lo :
    runs (startHiLo [(8, 0xCAFEF00D#32)] 0x00000000#32 0x00000007#32) 0x01000011
      (fun t => t.hi == 0xCAFEF00D#32 && t.lo == 0x00000007#32) = true := by decide
theorem test_mtlo_keeps_hi :
    runs (startHiLo [(8, 0xCAFEF00D#32)] 0x00000007#32 0x00000000#32) 0x01000013
      (fun t => t.hi == 0x00000007#32 && t.lo == 0xCAFEF00D#32) = true := by decide
theorem test_lw_negative_offset :
    runs (startData [(8, 0x10010004#32)] 0x8899AABB#32) 0x8D09FFFC
      (fun t => t.x 9 == 0x8899AABB#32) = true := by decide
theorem test_lw_unmapped_and_misaligned :
    runs (start [(8, 0x20000000#32), (9, 0x00000005#32)]) 0x8D090000 (fun t => t.x 9 == 0x00000000#32 && t.run == .running) = true ∧
      runs (startData [(8, 0x10010000#32)] 0x8899AABB#32) 0x8D090002
        (fun t => t.run == .halted (.fault (.misalignedData 0x00400000#32 0x10010002#32)) && t.x 9 == 0#32) = true := by decide
theorem test_lh_upper :
    runs (startData [(8, 0x10010000#32)] 0x8899AABB#32) 0x85090002
      (fun t => t.x 9 == 0xFFFF8899#32) = true := by decide
theorem test_lh_positive :
    runs (startData [(8, 0x10010000#32)] 0x00007FFF#32) 0x85090000
      (fun t => t.x 9 == 0x00007FFF#32) = true := by decide
theorem test_lb_lane_3 :
    runs (startData [(8, 0x10010000#32)] 0x8899AABB#32) 0x81090003
      (fun t => t.x 9 == 0xFFFFFF88#32) = true := by decide
theorem test_lb_positive :
    runs (startData [(8, 0x10010000#32)] 0x0000007F#32) 0x81090000
      (fun t => t.x 9 == 0x0000007F#32) = true := by decide
theorem test_sw_little_endian :
    runs (start [(8, 0x12345678#32), (9, 0x10010000#32)]) 0xAD280000
      (fun t => t.mem.read 0x10010000 == 0x78#8 && t.mem.read 0x10010003 == 0x12#8) = true := by decide
theorem test_sw_unmapped :
    runs (start [(8, 0x12345678#32), (9, 0x20000000#32)]) 0xAD280000
      (fun t => t.mem == ((start []).withFetchWord 32 0xAD280000).mem && t.run == .running) = true := by decide
theorem test_sh_upper :
    runs (startData [(8, 0x00001234#32), (9, 0x10010000#32)] 0x8899AABB#32) 0xA5280002
      (fun t => dataWord t == 0x1234AABB#32) = true := by decide
theorem test_sh_low_half_and_misaligned :
    runs (startData [(8, 0xFFFF1234#32), (9, 0x10010000#32)] 0x8899AABB#32) 0xA5280000 (fun t => dataWord t == 0x88991234#32) = true ∧
      runs (startData [(8, 0x00001234#32), (9, 0x10010000#32)] 0x8899AABB#32) 0xA5280003
        (fun t => t.run == .halted (.fault (.misalignedData 0x00400000#32 0x10010003#32)) && dataWord t == 0x8899AABB#32) = true := by
  decide
theorem test_sb_lane_3 :
    runs (startData [(8, 0xFFFFFF11#32), (9, 0x10010000#32)] 0x8899AABB#32) 0xA1280003
      (fun t => dataWord t == 0x1199AABB#32) = true := by decide
theorem test_sb_lane_0 :
    runs (startData [(8, 0x000000CC#32), (9, 0x10010000#32)] 0x8899AABB#32) 0xA1280000
      (fun t => dataWord t == 0x8899AACC#32) = true := by decide
theorem test_lui : runs (start [(8, 0x00001234#32)]) 0x3C08FFFF (fun t => t.x 8 == 0xFFFF0000#32) = true := by decide
theorem test_j_top_of_block : runs (start []) 0x0BFFFFFF (fun t => t.pc == 0x0FFFFFFC#32) = true := by decide
/-- The high 4 bits of a jump target come from the pc of the jump itself, not from pc + 4. -/
theorem test_j_at_end_of_block :
    runs (coreWith (layout [⟨"hi", 0x0FFFF000#32, 0x0FFFFFFF#32⟩] 0x0FFFF000#32) [] 0#32 0#32 0x0FFFFFFC#32 []) 0x08000004
      (fun t => t.pc == 0x00000010#32) = true := by decide
theorem test_jal_links_pc_plus_8 :
    runs (start []) 0x0C100008
      (fun t => t.x 31 == 0x00400008#32 && t.pc == 0x00400020#32) = true := by decide
theorem test_jr_any_target :
    runs (start [(8, 0x00000042#32)]) 0x01000008
      (fun t => t.pc == 0x00000042#32 && t.run == .running) = true := by decide
theorem test_jalr_same_register :
    runs (start [(8, 0x00400100#32)]) 0x01004009
      (fun t => t.x 8 == 0x00400008#32 && t.pc == 0x00400100#32) = true := by decide
theorem test_beq_backward :
    runs (startBranch [(8, 0x00000007#32), (9, 0x00000007#32)]) 0x1109FFFF
      (fun t => t.pc == 0x00400010#32) = true := by decide
theorem test_beq_not_taken :
    runs (startBranch [(8, 0x00000007#32), (9, 0x00000008#32)]) 0x1109FFFF
      (fun t => t.pc == 0x00400014#32) = true := by decide
theorem test_bne_taken :
    runs (startBranch [(8, 0x00000001#32), (9, 0x00000002#32)]) 0x15090002
      (fun t => t.pc == 0x0040001C#32) = true := by decide
theorem test_bne_not_taken : runs (startBranch [(8, 0x00000001#32)]) 0x15080002 (fun t => t.pc == 0x00400014#32) = true := by decide
theorem test_blez_zero : runs (startBranch []) 0x19000003 (fun t => t.pc == 0x00400020#32) = true := by decide
theorem test_blez_positive : runs (startBranch [(8, 0x00000001#32)]) 0x19000003 (fun t => t.pc == 0x00400014#32) = true := by decide
theorem test_bltz_negative : runs (startBranch [(8, 0x80000000#32)]) 0x05000003 (fun t => t.pc == 0x00400020#32) = true := by decide
theorem test_bltz_zero : runs (startBranch []) 0x05000003 (fun t => t.pc == 0x00400014#32) = true := by decide
theorem test_bgez_zero : runs (startBranch []) 0x05010003 (fun t => t.pc == 0x00400020#32) = true := by decide
theorem test_bgez_negative : runs (startBranch [(8, 0xFFFFFFFF#32)]) 0x05010003 (fun t => t.pc == 0x00400014#32) = true := by decide
theorem test_bgtz_positive : runs (startBranch [(8, 0x00000001#32)]) 0x1D000003 (fun t => t.pc == 0x00400020#32) = true := by decide
theorem test_bgtz_zero : runs (startBranch []) 0x1D000003 (fun t => t.pc == 0x00400014#32) = true := by decide
theorem test_syscall_commits :
    runs (start []) 0x0000000C
      (fun t => t.run == .halted .syscall && t.pc == 0x00400004#32 && t.count == 1) = true := by decide

/-! ## Faults, register 0, fetch (spec/95_test_vectors.md sections 2.1, 2.2, 2.5, 2.7) -/

theorem test_div_corners :
    runs (startHiLo [(8, 5#32)] 0x11#32 0x22#32) 0x0109001A
      (fun t => t.run == .halted (.fault (.arithmeticFault .divideByZero 0x00400000#32)) && t.hi == 0x11#32 && t.lo == 0x22#32 &&
        t.pc == 0x00400000#32 && t.count == 0) = true ∧
    runs (start [(8, 0x80000000#32), (9, 0xFFFFFFFF#32)]) 0x0109001A
      (fun t => t.run == .halted (.fault (.arithmeticFault .divideOverflow 0x00400000#32))) = true ∧
    runs (coreWith (config true false) [(8, 0x80000000#32), (9, 0xFFFFFFFF#32)] 5#32 6#32 0x00400000#32 []) 0x0109001A
      (fun t => t.hi == 0#32 && t.lo == 0x80000000#32 && t.pc == 0x00400004#32) = true := by decide
theorem test_unsupported :
    runs (start []) 0x0000000D
      (fun t => t.run == .halted (.fault (.unsupportedInstruction 0x00400000#32 0x0000000D#32)) && t.pc == 0x00400000#32 &&
        t.count == 0) = true := by decide
theorem test_misaligned_fetch :
    nextHolds (step (coreWith (config true true) [] 0#32 0#32 0x00400002#32 []))
      (fun t => t.run == .halted (.fault (.misalignedFetch 0x00400002#32)) && t.count == 0) = true := by decide
theorem test_fetch_unmapped :
    nextHolds (step (coreWith (config true true) [] 0#32 0#32 0x00500000#32 []))
      (fun t => t.pc == 0x00500004#32 && t.count == 1 && t.run == .running) = true := by decide
theorem test_add_to_register_zero :
    runs (start [(8, 1#32), (9, 2#32)]) 0x01090020 (fun t => t.x 0 == 0#32 && t.pc == 0x00400004#32) = true ∧
      runs (coreWith (config false true) [(8, 1#32), (9, 2#32)] 0#32 0#32 0x00400000#32 []) 0x01090020
        (fun t => t.x 0 == 3#32) = true := by decide

/-! ## The host (spec/95_test_vectors.md section 1) -/

/-- L1.8: SYSCALL, then zero further cycles, until reset. -/
theorem test_host_run_stops :
    (match hostRun 10 (hostReset [0x0000000C#32, 0x20080001#32] State.reset) with
      | .next (t, k) =>
        k == 1 && t.pc == 0x00400004#32 &&
          (match hostRun 10 t with
            | .next (u, m) => u == t && m == 0
            | _ => false)
      | _ => false) = true := by decide

/-- L1.9: out of range, read_word gives 0 and write_word changes nothing. -/
theorem test_host_out_of_range :
    hostReadWord 0x20000000#32 State.reset = .ok 0#32 ∧ hostWriteWord 0x20000000#32 5#32 State.reset = .ok State.reset := by decide
theorem test_host_refuses :
    hostReadWord 0x00400002#32 State.reset = .error (.hostMisalignedAddress 0x00400002#32) ∧
      hostReadRegister 32 State.reset = .error (.hostRegisterIndex 32) := by decide
theorem test_step_in_halted :
    nextHolds (step (hostStop State.reset)) (fun t => t == hostStop State.reset) = true := by decide
/-! ## Every hypothesis of every obligation is met somewhere: test_meets_<Obligation>, clause by clause at the ends of its range -/

/-- A core in the middle of a run: registers, HI, LO, a data word, and the instruction word `w` at its pc. -/
def demo (w : Word) : State :=
  coreWith (config true true)
    [(8, 0x12345678#32), (9, 0x10010000#32), (10, 0x80000000#32), (11, 0xFFFFFFFF#32), (12, 0x00000007#32)] 0x11#32 0x22#32
    0x00400000#32 [(0x10010000#32, 0x8899AABB#32), (0x00400000#32, w)]

/-- The same core with register 0 an ordinary register and no overflow fault. -/
def demoPlain (w : Word) : State := { demo w with cfg := config false false }

theorem test_meets_DecodedWordsMatchTheirOpcodeRow :
    decode 0x03FFFFCC#32 = .known .syscall ∧ 0x03FFFFCC#32 &&& (opcodeRow .syscall).1 = (opcodeRow .syscall).2 := by decide
theorem test_meets_UnknownWordsAreTheUnlistedOnes : decode 0xFFFFFFFF#32 = .unknown 0xFFFFFFFF#32 := by decide

theorem test_meets_SignedDivideResult :
    ((demo 0#32).x 12 ≠ 0#32 ∧ ¬ ((demo 0#32).x 10 = 0x80000000#32 ∧ (demo 0#32).x 12 = 0xFFFFFFFF#32)) ∧
      ((demo 0#32).x 11 ≠ 0#32 ∧ ¬ ((demo 0#32).x 12 = 0x80000000#32 ∧ (demo 0#32).x 11 = 0xFFFFFFFF#32)) := by decide
theorem test_meets_UnsignedDivideResult : (demo 0#32).x 11 ≠ 0#32 := by decide
theorem test_meets_DivideByZeroFaults : (demo 0#32).x 13 = 0#32 := by decide
theorem test_meets_DivideOverflowFollowsTheParameter :
    ((demo 0#32).x 10 = 0x80000000#32 ∧ (demo 0#32).x 11 = 0xFFFFFFFF#32 ∧ (demo 0#32).cfg.divOverflowFaults = true) ∧
      ((demoPlain 0#32).x 10 = 0x80000000#32 ∧ (demoPlain 0#32).x 11 = 0xFFFFFFFF#32 ∧
        (demoPlain 0#32).cfg.divOverflowFaults = false) := by decide
theorem test_meets_DivisionLaws :
    (∃ t, exec (.div 10 12) (demo 0#32) = .next t ∧ t.run = .running ∧
      ¬ ((demo 0#32).x 10 = 0x80000000#32 ∧ (demo 0#32).x 12 = 0xFFFFFFFF#32)) ∧
    (∃ t, exec (.div 10 11) (demoPlain 0#32) = .next t ∧ t.run = .running) ∧
    (∃ t, exec (.divu 10 11) (demo 0#32) = .next t ∧ t.run = .running) :=
  ⟨exists_of_nextHolds _ _ (by decide), exists_of_nextHolds _ _ (by decide), exists_of_nextHolds _ _ (by decide)⟩

theorem test_demo_inv : CoreInv (demo 0x01095020#32) := by decide

/-- The last mapped word of a region, and the last word of the address space, which no region holds. -/
theorem test_meets_LoadWordResult :
    CoreInv (demo 0#32) ∧
      ((0x10010FFC#32 : Word) = (demo 0#32).x 9 + (0x0FFC#16).signExtend 32 ∧ (0x10010FFC#32 : Word).toNat % 4 = 0) ∧
      ((0xFFFFFFFC#32 : Word) = (demo 0#32).x 0 + (0xFFFC#16).signExtend 32 ∧ (0xFFFFFFFC#32 : Word).toNat % 4 = 0) := by decide
theorem test_meets_LoadSubwordResults :
    CoreInv (demo 0#32) ∧
      ((0x10010FFE#32 : Word) = (demo 0#32).x 9 + (0x0FFE#16).signExtend 32 ∧ (0x10010FFE#32 : Word).toNat % 2 = 0) ∧
      (0xFFFFFFFF#32 : Word) = (demo 0#32).x 0 + (0xFFFF#16).signExtend 32 := by decide
theorem test_meets_StoreWordEffect :
    CoreInv (demo 0#32) ∧
      ((0x10010FFC#32 : Word) = (demo 0#32).x 9 + (0x0FFC#16).signExtend 32 ∧ (0x10010FFC#32 : Word).toNat % 4 = 0 ∧
        mappedIn (demo 0#32).cfg 0x10010FFC = true) ∧
      ((0x10011000#32 : Word) = (demo 0#32).x 9 + (0x1000#16).signExtend 32 ∧ (0x10011000#32 : Word).toNat % 4 = 0 ∧
        mappedIn (demo 0#32).cfg 0x10011000 = false) := by decide
theorem test_meets_StoreSubwordEffects :
    CoreInv (demo 0#32) ∧
      ((0x10010FFE#32 : Word) = (demo 0#32).x 9 + (0x0FFE#16).signExtend 32 ∧ (0x10010FFE#32 : Word).toNat % 2 = 0 ∧
        mappedIn (demo 0#32).cfg 0x10010FFE = true) ∧
      ((0x1000FFFF#32 : Word) = (demo 0#32).x 9 + (0xFFFF#16).signExtend 32 ∧
        mappedIn (demo 0#32).cfg 0x1000FFFF = false) := by decide
theorem test_meets_MisalignedDataFaults :
    ((0x10010002#32 : Word) = (demo 0#32).x 9 + (0x0002#16).signExtend 32 ∧ (0x10010002#32 : Word).toNat % 4 ≠ 0) ∧
      ((0x10010FFF#32 : Word) = (demo 0#32).x 9 + (0x0FFF#16).signExtend 32 ∧ (0x10010FFF#32 : Word).toNat % 4 ≠ 0 ∧
        (0x10010FFF#32 : Word).toNat % 2 ≠ 0) := by decide

theorem test_meets_BranchResults :
    (0x003E0004#32 : Word) = (demo 0#32).pc + 4#32 + ((0x8000#16).signExtend 32 <<< 2) ∧
      (0x00400004#32 : Word) = (demo 0#32).pc + 4#32 := by decide

theorem test_meets_StepRunsTheDecodedInstruction :
    isHalted (demo 0x01095020#32).run = false ∧ (demo 0x01095020#32).pc.toNat % 4 = 0 ∧
      decode (read32 (demo 0x01095020#32) (demo 0x01095020#32).pc) = .known (.add 10 8 9) := by decide
theorem test_meets_FetchStageFaults :
    (isHalted (coreWith (config true true) [] 0#32 0#32 0x00400003#32 []).run = false ∧
      (coreWith (config true true) [] 0#32 0#32 0x00400003#32 []).pc.toNat % 4 ≠ 0) ∧
    (isHalted (demo 0x0000000D#32).run = false ∧ (demo 0x0000000D#32).pc.toNat % 4 = 0 ∧
      decode (read32 (demo 0x0000000D#32) (demo 0x0000000D#32).pc) = .unknown 0x0000000D#32) := by decide
theorem test_meets_UnmappedFetchIsNoOp :
    isHalted (coreWith (config true true) [] 0#32 0#32 0xFFFFFFFC#32 []).run = false ∧
      (coreWith (config true true) [] 0#32 0#32 0xFFFFFFFC#32 []).pc.toNat % 4 = 0 ∧
      mappedIn (config true true) (coreWith (config true true) [] 0#32 0#32 0xFFFFFFFC#32 []).pc.toNat = false := by decide
theorem test_meets_HaltedCoreStaysPut :
    isHalted (hostStop (demo 0#32)).run = true ∧
      isHalted { demo 0#32 with run := .halted (.fault (.misalignedFetch 0x00400002#32)) : State }.run = true := by decide

/-- Each fault is raised by a step from a core that is not halted. -/
theorem test_meets_FaultOrigins :
    (∃ t, step (coreWith (config true true) [] 0#32 0#32 0x00400003#32 []) = .next t ∧
      t.run = .halted (.fault (.misalignedFetch 0x00400003#32))) ∧
    (∃ t, step (demo 0x0000000D#32) = .next t ∧
      t.run = .halted (.fault (.unsupportedInstruction 0x00400000#32 0x0000000D#32))) ∧
    (∃ t, step (demo 0x0100001B#32) = .next t ∧ t.run = .halted (.fault (.arithmeticFault .divideByZero 0x00400000#32))) ∧
    (∃ t, step (demo 0x014B001A#32) = .next t ∧ t.run = .halted (.fault (.arithmeticFault .divideOverflow 0x00400000#32))) ∧
    (∃ t, step (demo 0x8D280001#32) = .next t ∧ t.run = .halted (.fault (.misalignedData 0x00400000#32 0x10010001#32))) :=
  ⟨exists_of_nextHolds _ _ (by decide), exists_of_nextHolds _ _ (by decide), exists_of_nextHolds _ _ (by decide),
    exists_of_nextHolds _ _ (by decide), exists_of_nextHolds _ _ (by decide)⟩
theorem test_meets_FaultsArePrecise :
    isHalted (demo 0x014B001A#32).run = false ∧
      ∃ t, step (demo 0x014B001A#32) = .next t ∧ t.run = .halted (.fault (.arithmeticFault .divideOverflow 0x00400000#32)) :=
  ⟨by decide, exists_of_nextHolds _ _ (by decide)⟩
theorem test_meets_NormalEndOnlyBySyscall :
    isHalted (demo 0x0000000C#32).run = false ∧ ∃ t, step (demo 0x0000000C#32) = .next t ∧ t.run = .halted .syscall :=
  ⟨by decide, exists_of_nextHolds _ _ (by decide)⟩
theorem test_meets_CounterCountsCommits :
    (∃ t, step (hostStop (demo 0#32)) = .next t ∧ isHalted (hostStop (demo 0#32)).run = true) ∧
    (∃ t, step (demo 0x0000000D#32) = .next t ∧
      t.run = .halted (.fault (.unsupportedInstruction 0x00400000#32 0x0000000D#32))) ∧
    (∃ t, step (demo 0x01095020#32) = .next t ∧ isHalted (demo 0x01095020#32).run = false ∧ t.run = .running) :=
  ⟨exists_of_nextHolds _ _ (by decide), exists_of_nextHolds _ _ (by decide), exists_of_nextHolds _ _ (by decide)⟩

theorem test_meets_OnlyTheDestinationRegisterChanges :
    destOf (.add 10 8 9) ≠ some 11 ∧ ∃ t, exec (.add 10 8 9) (demo 0#32) = .next t ∧ t.x 10 ≠ (demo 0#32).x 10 :=
  ⟨by decide, exists_of_nextHolds _ _ (by decide)⟩
theorem test_meets_HiLoOnlyByTheirInstructions :
    (∃ t, exec (.mult 8 11) (demo 0#32) = .next t ∧ writesHi (.mult 8 11) = true ∧ writesLo (.mult 8 11) = true ∧
      t.run = .running) ∧
    (∃ t, exec (.mthi 8) (demo 0#32) = .next t ∧ writesLo (.mthi 8) = false) ∧
    (∃ t, exec (.mtlo 8) (demo 0#32) = .next t ∧ writesHi (.mtlo 8) = false) ∧
    (∃ t, exec (.mfhi 13) (demo 0#32) = .next t ∧ hardwiredZero (demo 0#32).cfg 13 = false ∧ readsHiLo (.mfhi 13) = true) ∧
    (∃ t, exec (.mflo 0) (demoPlain 0#32) = .next t ∧ hardwiredZero (demoPlain 0#32).cfg 0 = false) ∧
    (∃ t, exec (.add 10 8 9) { demo 0#32 with cur := { (demo 0#32).cur with hi := 1#32, lo := 2#32 } } = .next t ∧
      readsHiLo (.add 10 8 9) = false) :=
  ⟨exists_of_nextHolds _ _ (by decide), exists_of_nextHolds _ _ (by decide), exists_of_nextHolds _ _ (by decide),
    exists_of_nextHolds _ _ (by decide), exists_of_nextHolds _ _ (by decide), exists_of_nextHolds _ _ (by decide)⟩
theorem test_meets_OnlyStoresChangeMemory :
    CoreInv (demo 0#32) ∧
    (∃ t, exec (.lw 8 0x0000#16 9) (demo 0#32) = .next t ∧ storeTarget (.lw 8 0x0000#16 9) (demo 0#32) = none) ∧
    (∃ t, exec (.sh 8 0x0002#16 9) (demo 0#32) = .next t ∧
      storeTarget (.sh 8 0x0002#16 9) (demo 0#32) = some (0x10010002#32, 2)) :=
  ⟨by decide, exists_of_nextHolds _ _ (by decide), exists_of_nextHolds _ _ (by decide)⟩
theorem test_outside_the_stored_bytes : ¬ InBytes 0x10010002#32 2 0x10010001 ∧ InBytes 0x10010002#32 2 0x10010003 :=
  ⟨fun ⟨i, hi, he⟩ => by interval_cases i <;> exact absurd he (by decide), 1, by decide, by decide⟩
theorem test_meets_PcUpdateRule :
    ∃ t, exec (.jr 12) (demo 0#32) = .next t ∧ t.run = .running ∧ t.pc.toNat % 4 ≠ 0 := exists_of_nextHolds _ _ (by decide)
theorem test_meets_PcStaysAligned :
    jumpsToRegister (.beq 8 8 0x8000#16) = false ∧ (demo 0#32).pc.toNat % 4 = 0 ∧
      ∃ t, exec (.beq 8 8 0x8000#16) (demo 0#32) = .next t ∧ t.pc = 0x003E0004#32 :=
  ⟨by decide, by decide, exists_of_nextHolds _ _ (by decide)⟩
theorem test_meets_RegisterZeroTreatment :
    ((demo 0#32).cfg.r0Hardwired = true ∧ CoreInv (demo 0#32) ∧
      ∃ t, exec (.addi 0 8 0x0001#16) (demo 0#32) = .next t ∧ destOf (.addi 0 8 0x0001#16) = some 0) ∧
    ((demoPlain 0#32).cfg.r0Hardwired = false ∧
      (∃ t, exec (.lw 0 0x0000#16 9) (demoPlain 0#32) = .next t ∧ destOf (.lw 0 0x0000#16 9) = some 0 ∧ t.run = .running ∧
        t.x 0 = 0x8899AABB#32) ∧
      (∃ t, exec (.mult 8 9) (demoPlain 0#32) = .next t ∧ destOf (.mult 8 9) ≠ some 0) ∧
      ∃ t, exec (.lw 0 0x0001#16 9) (demoPlain 0#32) = .next t ∧
        t.run = .halted (.fault (.misalignedData 0x00400000#32 0x10010001#32))) :=
  ⟨⟨by decide, by decide, exists_of_nextHolds _ _ (by decide)⟩, by decide, exists_of_nextHolds _ _ (by decide),
    exists_of_nextHolds _ _ (by decide), exists_of_nextHolds _ _ (by decide)⟩

theorem test_meets_WordPrimitives :
    CoreInv (demo 0#32) ∧
      ((0x10010FFC#32 : Word).toNat % 4 = 0 ∧ mappedIn (demo 0#32).cfg (0x10010FFC#32 : Word).toNat = true) ∧
      ((0xFFFFFFFC#32 : Word).toNat % 4 = 0 ∧ mappedIn (demo 0#32).cfg (0xFFFFFFFC#32 : Word).toNat = false) := by decide
theorem test_meets_UnmappedAccessIsHarmless :
    CoreInv (demo 0#32) ∧ (0x20000000#32 : Word) = (coreWith (config true true) [(8, 0x20000000#32)] 0#32 0#32 0x00400000#32 []).x 8 +
        (0x0000#16).signExtend 32 ∧
    (∃ t, exec (.lw 9 0x0000#16 8) (coreWith (config true true) [(8, 0x20000000#32)] 0#32 0#32 0x00400000#32 []) = .next t ∧
      t.run = .running ∧ mappedIn (config true true) 0x20000000 = false) ∧
    (∃ t, exec (.sb 9 0x0000#16 8) (coreWith (config true true) [(8, 0x20000000#32)] 0#32 0#32 0x00400000#32 []) = .next t ∧
      t.run = .running) :=
  ⟨by decide, by decide, exists_of_nextHolds _ _ (by decide), exists_of_nextHolds _ _ (by decide)⟩
theorem test_unmapped_state_inv : CoreInv (coreWith (config true true) [(8, 0x20000000#32)] 0#32 0#32 0x00400000#32 []) := by decide
theorem test_meets_BranchOffsetValue :
    (∃ t, exec (.beq 8 8 0x8000#16) (demo 0#32) = .next t ∧ t.pc - ((demo 0#32).pc + 4#32) = 0xFFFE0000#32) ∧
    (∃ t, exec (.beq 8 8 0x7FFF#16) (demo 0#32) = .next t ∧ t.pc - ((demo 0#32).pc + 4#32) = 0x0001FFFC#32) :=
  ⟨exists_of_nextHolds _ _ (by decide), exists_of_nextHolds _ _ (by decide)⟩
theorem test_meets_JumpTargetBlock :
    (∃ t, exec (.j 0x3FFFFFF#26) (demo 0#32) = .next t ∧ t.pc = 0x0FFFFFFC#32) ∧
    (∃ t, exec (.jal 0x0000000#26) (demo 0#32) = .next t ∧ t.pc = 0x00000000#32) :=
  ⟨exists_of_nextHolds _ _ (by decide), exists_of_nextHolds _ _ (by decide)⟩
theorem test_meets_StoreThenLoadGivesTheWord :
    CoreInv (demo 0#32) ∧ (0x10010FFC#32 : Word) = (demo 0#32).x 9 + (0x0FFC#16).signExtend 32 ∧
      (0x10010FFC#32 : Word).toNat % 4 = 0 ∧ mappedIn (demo 0#32).cfg (0x10010FFC#32 : Word).toNat = true ∧
      ∃ t, exec (.sw 8 0x0FFC#16 9) (demo 0#32) = .next t ∧ t.x 9 + (0x0FFC#16).signExtend 32 = 0x10010FFC#32 :=
  ⟨by decide, by decide, by decide, by decide, exists_of_nextHolds _ _ (by decide)⟩

/-- Register 9 holds SYSCALL's word, and register 8 the pc. -/
def selfModifying : State :=
  coreWith (config true true) [(8, 0x00400000#32), (9, 0x0000000C#32)] 0#32 0#32 0x00400000#32 [(0x00400000#32, 0xAD090004#32)]

theorem test_meets_StoreIsSeenByTheNextFetch :
    CoreInv selfModifying ∧ selfModifying.pc.toNat % 4 = 0 ∧
      selfModifying.x 8 + (0x0004#16).signExtend 32 = selfModifying.pc + 4#32 ∧
      mappedIn selfModifying.cfg (selfModifying.pc + 4#32).toNat = true ∧ decode (selfModifying.x 9) = .known .syscall ∧
      ∃ t, exec (.sw 9 0x0004#16 8) selfModifying = .next t ∧ t.pc = 0x00400004#32 :=
  ⟨by decide, by decide, by decide, by decide, by decide, exists_of_nextHolds _ _ (by decide)⟩

theorem test_meets_InvHoldsAtReset : (config false false).wf ∧ (layout [] 0xFFFFFFFC#32).wf := by decide
theorem test_meets_InvKeptByEveryStep :
    CoreInv (demo 0xAD2A0000#32) ∧ ∃ t, step (demo 0xAD2A0000#32) = .next t ∧ dataWord t = 0x80000000#32 :=
  ⟨by decide, exists_of_nextHolds _ _ (by decide)⟩
theorem test_meets_InvKeptByTheHost :
    CoreInv (demo 0#32) ∧
      read32 (hostReset [0x0000000C#32] (demo 0#32)) 0x00400000#32 = 0x0000000C#32 ∧
      (match hostWriteRegister 31 1#32 (demo 0#32) with
        | .ok t => t.x 31 == 1#32
        | .error _ => false) = true ∧
      (match hostWriteWord 0x00000FFC#32 1#32 (demo 0#32) with
        | .ok t => read32 t 0x00000FFC#32 == 1#32
        | .error _ => false) = true := by decide
theorem test_meets_ResetValues :
    ∃ s, s = State.initialize (config false false) ∧ s.run = .ready ∧ s.cfg.r0Hardwired = false := ⟨_, rfl, by decide⟩

/-- An image that ends at the top of the address space, none of it in a region, and one of two words at the example base. -/
theorem test_meets_ImageLoadedByReset :
    (({ demo 0#32 with cfg := layout [] 0xFFFFFFF8#32 } : State).cfg.wf ∧ (0xFFFFFFF8#32 : Word).toNat + 4 * 2 ≤ 2 ^ 32) ∧
      ((demo 0#32).cfg.wf ∧ (demo 0#32).cfg.textBase.toNat + 4 * 2 ≤ 2 ^ 32) := by decide
theorem test_meets_HostAccessors :
    CoreInv (demo 0#32) ∧ (32 : Nat) ≤ 32 ∧ (0x10010001#32 : Word).toNat % 4 ≠ 0 ∧
      ((0x10010FFC#32 : Word).toNat % 4 = 0 ∧ mappedIn (demo 0#32).cfg (0x10010FFC#32 : Word).toNat = true) ∧
      ((0x10011000#32 : Word).toNat % 4 = 0 ∧ mappedIn (demo 0#32).cfg (0x10011000#32 : Word).toNat = false) := by decide

/-- A base one past a multiple of 4, and one at the top of the address space; an image and none. -/
theorem test_meets_ResetAtMisalignedBase :
    ({ demo 0#32 with cfg := layout [] 0x00400001#32 } : State).cfg.textBase.toNat % 4 ≠ 0 ∧
      ({ demo 0#32 with cfg := layout [] 0xFFFFFFFF#32 } : State).cfg.textBase.toNat % 4 ≠ 0 ∧
      (∀ r ∈ ({ demo 0#32 with cfg := layout Config.exampleConfig.regions 0x00400002#32 } : State).cfg.regions, r.wf) ∧
      nextHolds (step (hostReset [] { demo 0#32 with cfg := layout [] 0xFFFFFFFF#32 }))
        (fun t => t.run == .halted (.fault (.misalignedFetch 0xFFFFFFFF#32))) = true := by decide

end Sys2Proof.Tests
end

section
/-!
The state family (spec/10_state.md): what a cycle that commits does, said once (`Committed`), and from it the counter, the destination
register, register 0, the alignment of the pc, and the isolation of HI and LO.
-/

namespace Sys2Proof.Machine

/-! ## HI and LO replaced, and HI and LO erased -/

/-- The state with other values in the current HI and LO. -/
def withHiLo (a b : Word) (s : State) : State := { s with cur := { s.cur with hi := a, lo := b } }

@[simp] theorem withHiLo_x (a b : Word) (s : State) (r : Reg) : (withHiLo a b s).x r = s.x r := rfl
@[simp] theorem withHiLo_pc (a b : Word) (s : State) : (withHiLo a b s).pc = s.pc := rfl
@[simp] theorem withHiLo_cfg (a b : Word) (s : State) : (withHiLo a b s).cfg = s.cfg := rfl

/-- MULT, MULTU, DIV and DIVU raise a fault or write HI and LO, and which they do and what they write is the same whatever HI and LO
held. -/
theorem exec_mulDiv_withHiLo (i : Instr) (s : State) (hhi : writesHi i = true) (hlo : writesLo i = true) :
    (∃ f, ∀ a b, exec i (withHiLo a b s) = raise f (withHiLo a b s)) ∨
    (∃ hi lo, ∀ a b, exec i (withHiLo a b s) = retireHiLo hi lo (withHiLo a b s)) := by
  cases i with
  | mult | multu =>
    simp only [exec, execMult, execMultu, withHiLo_x]
    exact .inr ⟨_, _, fun _ _ => rfl⟩
  | div rs rt =>
    simp only [exec, execDiv, withHiLo_x, withHiLo_pc, withHiLo_cfg]
    by_cases hzero : s.x rt = 0x00000000#32
    · exact .inl ⟨_, fun _ _ => if_pos hzero⟩
    · by_cases hover : divOverflows (s.x rs) (s.x rt) = true
      · by_cases hfault : s.cfg.divOverflowFaults = true
        · exact .inl ⟨_, fun _ _ => (if_neg hzero).trans ((if_pos hover).trans (if_pos hfault))⟩
        · exact .inr ⟨_, _, fun _ _ => (if_neg hzero).trans ((if_pos hover).trans (if_neg hfault))⟩
      · exact .inr ⟨_, _, fun _ _ => (if_neg hzero).trans (if_neg hover)⟩
  | divu rs rt =>
    simp only [exec, execDivu, withHiLo_x, withHiLo_pc]
    by_cases hzero : s.x rt = 0x00000000#32
    · exact .inl ⟨_, fun _ _ => if_pos hzero⟩
    · exact .inr ⟨_, _, fun _ _ => if_neg hzero⟩
  | _ => simp [writesHi, writesLo] at hhi hlo

/-- What stays of a state when both snapshots' HI and LO are forgotten. -/
def eraseHiLo (s : State) : State :=
  { s with cur := { s.cur with hi := 0#32, lo := 0#32 }, nxt := { s.nxt with hi := 0#32, lo := 0#32 } }

@[simp] theorem eraseHiLo_cfg (s : State) : (eraseHiLo s).cfg = s.cfg := rfl

theorem eraseHiLo_setX (d : Reg) (v : Word) (s : State) : eraseHiLo (setX d v s) = setX d v (eraseHiLo s) := by
  unfold setX
  rw [eraseHiLo_cfg]
  split <;> rfl

theorem eraseHiLo_write32 (addr v : Word) (s : State) : eraseHiLo (write32 addr v s) = write32 addr v (eraseHiLo s) := by
  unfold write32
  rw [eraseHiLo_cfg]
  split <;> rfl

/-- The next state of an outcome without its HI and LO. -/
def erasedNext : Host.Outcome State Fault Refusal → Option State
  | .next t => some (eraseHiLo t)
  | _ => none

/-- Committed cycles agree but for HI and LO when the states they commit do. -/
theorem erasedNext_retire (u v : State) (h : eraseHiLo u = eraseHiLo v) : erasedNext (retire u) = erasedNext (retire v) :=
  congrArg (fun w => some (commit false w)) h

theorem erasedNext_ite {p : Prop} [Decidable p] {o o' q q' : Host.Outcome State Fault Refusal}
    (ho : erasedNext o = erasedNext o') (hq : erasedNext q = erasedNext q') :
    erasedNext (if p then o else q) = erasedNext (if p then o' else q') := by
  split
  · exact ho
  · exact hq

/-- An instruction that does not read HI or LO does the same, but for HI and LO, whatever they hold. -/
theorem erasedNext_exec_withHiLo (i : Instr) (s : State) (a b : Word) (hi : readsHiLo i = false) :
    erasedNext (exec i (withHiLo a b s)) = erasedNext (exec i s) := by
  have begin_setX (d : Reg) (v : Word) :
      eraseHiLo (setX d v (beginCycle (withHiLo a b s))) = eraseHiLo (setX d v (beginCycle s)) := by
    rw [eraseHiLo_setX, eraseHiLo_setX]
    rfl
  have begin_write32 (addr v : Word) :
      eraseHiLo (write32 addr v (beginCycle (withHiLo a b s))) = eraseHiLo (write32 addr v (beginCycle s)) := by
    rw [eraseHiLo_write32, eraseHiLo_write32]
    rfl
  cases i with
  | mfhi | mflo => simp [readsHiLo] at hi
  | mult | multu | mthi | mtlo | j | jr | syscall => rfl
  | jal | jalr => exact erasedNext_retire _ _ (congrArg (setPc _) (begin_setX _ _))
  | div => exact erasedNext_ite rfl (erasedNext_ite (erasedNext_ite rfl rfl) rfl)
  | divu | beq | bne | blez | bltz | bgez | bgtz => exact erasedNext_ite rfl rfl
  | lw | lh => exact erasedNext_ite (erasedNext_retire _ _ (begin_setX _ _)) rfl
  | sw | sh => exact erasedNext_ite (erasedNext_retire _ _ (begin_write32 _ _)) rfl
  | sb => exact erasedNext_retire _ _ (begin_write32 _ _)
  | _ => exact erasedNext_retire _ _ (begin_setX _ _)

/-! ## The next pc -/

/-- The pc a branch leaves. -/
theorem branchIf_pc (taken : Bool) (imm : Half) (s t : State) (h : branchIf taken imm s = .next t) :
    t.pc = if taken then s.pc + 4#32 + (imm.signExtend 32 <<< 2) else s.pc + 4#32 := by
  obtain ⟨u, hu, hjump⟩ := branchIf_spec taken imm s
  obtain rfl : u = t := Host.Outcome.next.inj (hu.symm.trans h)
  exact hjump.pc

/-- An access that requires alignment faults or commits. -/
theorem access_cases (aligned : Bool) (f : Fault) (s u t : State)
    (h : (if aligned then retire u else raise f s) = .next t) :
    (∃ f, t = { s with nxt := s.cur, run := .halted (.fault f) }) ∨ t = commit false u := by
  cases aligned
  · exact .inl ⟨f, raise_next f s t h⟩
  · injection h with h
    exact .inr h.symm

/-- MULT, MULTU, DIV and DIVU fault or write HI and LO. -/
theorem exec_mulDiv_cases (i : Instr) (s t : State) (h : exec i s = .next t) (hhi : writesHi i = true)
    (hlo : writesLo i = true) :
    (∃ f, t = { s with nxt := s.cur, run := .halted (.fault f) }) ∨ ∃ hi lo, WritesHiLo s t hi lo := by
  rcases exec_mulDiv_withHiLo i s hhi hlo with ⟨f, hf⟩ | ⟨hi, lo, hcommit⟩
  · exact .inl ⟨f, raise_next f s t ((hf s.hi s.lo).symm.trans h)⟩
  · obtain rfl : commit false _ = t := Host.Outcome.next.inj ((hcommit s.hi s.lo).symm.trans h)
    exact .inr ⟨hi, lo, writesHiLo_setHi_setLo hi lo s⟩

/-- An instruction that does not fault leaves the pc R84 gives. -/
theorem exec_pc (i : Instr) (s t : State) (h : exec i s = .next t) :
    (∃ f, t = { s with nxt := s.cur, run := .halted (.fault f) }) ∨ t.pc = nextPcOf i s := by
  cases i with
  | beq | bne | blez | bltz | bgez | bgtz =>
    refine .inr ((branchIf_pc _ _ _ _ h).trans ?_)
    simp [nextPcOf, condEq, condNe, condLez, condLtz, condGez, condGtz]
  | mult | multu | div | divu =>
    exact (exec_mulDiv_cases _ s t h rfl rfl).imp_right fun ⟨_, _, ht⟩ => ht.pc
  | lw | lh | sw | sh =>
    refine (access_cases _ _ s _ t h).imp_right ?_
    rintro rfl
    simp [State.pc, nextPcOf, pcPlus4, memWriteHalf]
  | _ =>
    injection h with h
    subst h
    simp [State.pc, nextPcOf, pcPlus4, memWriteByte, jumpTarget_eq]

/-! ## A cycle that commits -/

/-- Everything a committing cycle of `i` does, but for the values a store leaves in memory and those left in HI and LO
(spec/40_cycle.md R85, R88). -/
structure Committed (i : Instr) (s t : State) : Prop where
  count : t.count = s.count + 1
  run : t.run = runAfterCommit (decide (i = .syscall))
  next : t.nxt = t.cur
  cfg : t.cfg = s.cfg
  mem : storeTarget i s = none → t.mem = s.mem
  hi : writesHi i = false → t.hi = s.hi
  lo : writesLo i = false → t.lo = s.lo
  gpr : t.cur.gpr = s.cur.gpr ∨ ∃ d v, destOf i = some d ∧ t.cur.gpr = (setX d v (beginCycle s)).nxt.gpr
  dest : ∀ d, destOf i = some d → t.x d = if d = 0 ∧ s.cfg.r0Hardwired = true then 0#32 else resultOf i s
  pc : t.pc = nextPcOf i s

/-- An instruction takes a fault, or its cycle commits. -/
theorem exec_cases (i : Instr) (s t : State) (h : exec i s = .next t) :
    (∃ f, t = { s with nxt := s.cur, run := .halted (.fault f) }) ∨ Committed i s t := by
  rcases exec_shape i s with ⟨f, hf⟩ | ⟨u, hu, ⟨-, hcount, hcfg, hmem, hhi, hlo⟩, hgpr⟩
  · exact .inl ⟨f, raise_next f s t (hf.symm.trans h)⟩
  · obtain rfl : commit (decide (i = .syscall)) u = t := Host.Outcome.next.inj (hu.symm.trans h)
    have not_fault : ¬ ∃ f, commit (decide (i = .syscall)) u = { s with nxt := s.cur, run := .halted (.fault f) } :=
      fun ⟨f, hf⟩ => commit_run_ne_fault _ u f (congrArg State.run hf)
    exact .inr {
      count := by simp [hcount]
      run := rfl
      next := rfl
      cfg := hcfg
      mem := hmem
      hi := hhi
      lo := hlo
      gpr := hgpr
      dest := fun d hd => (exec_dest i s _ d hd h).resolve_left not_fault
      pc := (exec_pc i s _ h).resolve_left not_fault }

/-- The run state after a commit records no fault. -/
theorem Committed.run_ne_fault {i : Instr} {s t : State} (h : Committed i s t) (f : Fault) :
    t.run ≠ .halted (.fault f) := by
  rw [h.run]
  exact commit_run_ne_fault _ s f

/-- A committing cycle leaves every register but the destination alone. -/
theorem Committed.x_other {i : Instr} {s t : State} (h : Committed i s t) (r : Reg) (hr : destOf i ≠ some r) :
    t.x r = s.x r := by
  rcases h.gpr with hg | ⟨d, v, hd, hg⟩
  · exact x_congr s t hg h.cfg r
  · have hne : r ≠ d := fun he => hr (he ▸ hd)
    rw [x_of_setX d v s (beginCycle s) t rfl rfl hg h.cfg r, if_neg hne]

/-- A committing cycle never stores to a hard-wired register 0. -/
theorem Committed.gpr_zero {i : Instr} {s t : State} (h : Committed i s t) (hz : s.cfg.r0Hardwired = true) :
    t.cur.gpr[(0 : Reg)] = s.cur.gpr[(0 : Reg)] := by
  rcases h.gpr with hg | ⟨d, v, -, hg⟩
  · rw [hg]
  · rw [hg, setX_nxt_gpr]
    by_cases hd : hardwiredZero s.cfg d = true
    · simp [hd]
    · have hne : (d : Nat) ≠ 0 := fun he => hd ((hardwiredZero_iff _ _).mpr ⟨Fin.ext he, hz⟩)
      simp [hd, hne]

/-- Everything a step that answers can do: nothing in `Halted`, a fault, or the commit of the instruction fetched. -/
theorem step_next_cases (s t : State) (h : step s = .next t) :
    (isHalted s.run = true ∧ t = s) ∨
    (isHalted s.run = false ∧ ∃ f, t = { s with nxt := s.cur, run := .halted (.fault f) }) ∨
    (isHalted s.run = false ∧ ∃ i, fetchDecode s = .ok i ∧ Committed i s t) := by
  rcases step_cases s with ⟨hh, hs⟩ | ⟨hh, f, -, hs⟩ | ⟨hh, i, hi, hs⟩ <;> rw [hs] at h
  · injection h with h
    exact .inl ⟨hh, h.symm⟩
  · exact .inr (.inl ⟨hh, f, raise_next f s t h⟩)
  · rcases exec_cases i s t h with hf | hc
    · exact .inr (.inl ⟨hh, hf⟩)
    · exact .inr (.inr ⟨hh, i, hi, hc⟩)

/-! ## The counter and the destination register -/

/-- Settles O38: of the three things a step can do, only the commit counts, and it is the one that neither starts in `Halted` nor ends
in a fault. -/
theorem counterCountsCommits : Obligations.CounterCountsCommits := by
  intro s t h
  rcases step_next_cases s t h with ⟨hh, rfl⟩ | ⟨-, f, rfl⟩ | ⟨hh, i, -, hc⟩
  · exact ⟨fun _ => rfl, fun hn => absurd (.inl hh) hn⟩
  · exact ⟨fun _ => rfl, fun hn => absurd (.inr ⟨f, rfl⟩) hn⟩
  · refine ⟨?_, fun _ => hc.count⟩
    rintro (hr | ⟨f, hf⟩)
    · simp [hh] at hr
    · exact absurd hf (hc.run_ne_fault f)

/-- Settles O39: a fault writes no register, and a commit none but the destination. -/
theorem onlyTheDestinationRegisterChanges : Obligations.OnlyTheDestinationRegisterChanges := by
  intro i s t h r hr
  rcases exec_cases i s t h with ⟨f, rfl⟩ | hc
  · rfl
  · exact hc.x_other r hr

/-! ## The alignment of the pc -/

theorem add_aligned (a b : Word) (ha : a.toNat % 4 = 0) (hb : b.toNat % 4 = 0) : (a + b).toNat % 4 = 0 := by
  rw [BitVec.toNat_add]
  omega

theorem shiftLeft_two_aligned (a : Word) : (a <<< 2).toNat % 4 = 0 := by
  rw [BitVec.toNat_shiftLeft, Nat.shiftLeft_eq]
  omega

/-- A jump target is a multiple of 4, from any pc: the target field is shifted over two zeros and the mask keeps bits 31:28 only. -/
theorem jumpTarget_aligned (pc : Word) (target : BitVec 26) : (jumpTarget pc target).toNat % 4 = 0 := by
  have hlow := shiftLeft_two_aligned (target.setWidth 32)
  have hhigh : (pc &&& 0xF0000000#32).toNat % 4 = 0 := by
    rw [BitVec.toNat_and, Nat.and_mod_two_pow (n := 2)]
    exact Nat.and_zero _
  rw [jumpTarget_eq, BitVec.toNat_or, Nat.or_mod_two_pow (n := 2)]
  exact (congrArg₂ (· ||| ·) hhigh hlow).trans (Nat.or_zero 0)

/-- From an aligned pc, every next pc but a register's is aligned. -/
theorem nextPcOf_aligned (i : Instr) (s : State) (hi : jumpsToRegister i = false) (hpc : s.pc.toNat % 4 = 0) :
    (nextPcOf i s).toNat % 4 = 0 := by
  have hnext : (s.pc + 4#32).toNat % 4 = 0 := add_aligned _ _ hpc rfl
  cases i with
  | j target | jal target => exact jumpTarget_aligned s.pc target
  | jr | jalr => simp [jumpsToRegister] at hi
  | beq | bne | blez | bltz | bgez | bgtz =>
    simp only [nextPcOf]
    split
    · exact add_aligned _ _ hnext (shiftLeft_two_aligned _)
    · exact hnext
  | _ => exact hnext

/-- Settles O43: a fault keeps the pc, and a commit leaves the aligned pc of R84. -/
theorem pcStaysAligned : Obligations.PcStaysAligned := by
  intro i s t hi hpc h
  rcases exec_cases i s t h with ⟨f, rfl⟩ | hc
  · exact hpc
  · rw [hc.pc]
    exact nextPcOf_aligned i s hi hpc

/-! ## Register 0 -/

theorem x_zero_of_hardwired (s : State) (hz : s.cfg.r0Hardwired = true) : s.x 0 = 0#32 :=
  if_pos ((hardwiredZero_iff _ _).mpr ⟨rfl, hz⟩)

theorem hardwiredZero_of_plain (c : Config) (hz : c.r0Hardwired = false) (r : Reg) : hardwiredZero c r = false := by
  simp [hardwiredZero, hz]

/-- Without a hard-wired register 0 every register reads its storage. -/
theorem x_eq_gpr_of_plain (s : State) (hz : s.cfg.r0Hardwired = false) (r : Reg) : s.x r = s.cur.gpr[r] := by
  simp [State.x, hardwiredZero_of_plain _ hz]

/-- No instruction changes the configuration. -/
theorem exec_cfg (i : Instr) (s t : State) (h : exec i s = .next t) : t.cfg = s.cfg := by
  rcases exec_cases i s t h with ⟨f, rfl⟩ | hc
  · rfl
  · exact hc.cfg

/-- After an instruction next equals current (spec/10_state.md R31). -/
theorem exec_nxt (i : Instr) (s t : State) (h : exec i s = .next t) : t.nxt = t.cur := by
  rcases exec_cases i s t h with ⟨f, rfl⟩ | hc
  · rfl
  · exact hc.next

/-- No instruction stores to a hard-wired register 0. -/
theorem exec_gpr_zero (i : Instr) (s t : State) (hz : s.cfg.r0Hardwired = true) (h : exec i s = .next t) :
    t.cur.gpr[(0 : Reg)] = s.cur.gpr[(0 : Reg)] := by
  rcases exec_cases i s t h with ⟨f, rfl⟩ | hc
  · rfl
  · exact hc.gpr_zero hz

/-- An instruction whose destination is a hard-wired register 0 shows no change in any register. -/
theorem exec_x_of_dest_zero (i : Instr) (s t : State) (hz : s.cfg.r0Hardwired = true) (h : exec i s = .next t)
    (hd : destOf i = some 0) (r : Reg) : t.x r = s.x r := by
  by_cases hr : r = 0
  · rw [hr, x_zero_of_hardwired s hz, x_zero_of_hardwired t (exec_cfg i s t h ▸ hz)]
  · exact onlyTheDestinationRegisterChanges i s t h r (by simp [hd, Ne.symm hr])

/-- Where register 0 is ordinary, what an instruction leaves in it: the value computed, if it commits with destination 0, and the old
value otherwise. -/
theorem exec_x_zero_of_plain (i : Instr) (s t : State) (hz : s.cfg.r0Hardwired = false) (h : exec i s = .next t) :
    (destOf i = some 0 → (∀ f, t.run ≠ .halted (.fault f)) → t.x 0 = resultOf i s) ∧
    (destOf i ≠ some 0 ∨ (∃ f, t.run = .halted (.fault f)) → t.x 0 = s.x 0) := by
  rcases exec_cases i s t h with ⟨f, rfl⟩ | hc
  · exact ⟨fun _ hn => absurd rfl (hn f), fun _ => rfl⟩
  · refine ⟨fun hd _ => ?_, ?_⟩
    · rw [hc.dest 0 hd]
      simp [hz]
    · rintro (hd | ⟨f, hf⟩)
      · exact hc.x_other 0 hd
      · exact absurd hf (hc.run_ne_fault f)

theorem hostWriteRegister_zero_of_hardwired (s : State) (hz : s.cfg.r0Hardwired = true) (v : Word) :
    hostWriteRegister 0 v s = .ok s := by
  simp [hostWriteRegister, hardwiredZero, hz]

/-- A host write to an ordinary register 0 is kept. -/
theorem hostWriteRegister_zero_of_plain (s : State) (hz : s.cfg.r0Hardwired = false) (v : Word) :
    ∃ t, hostWriteRegister 0 v s = .ok t ∧ t.x 0 = v := by
  refine ⟨withBoth { s.cur with gpr := s.cur.gpr.set 0 v } s, ?_, ?_⟩
  · simp [hostWriteRegister, hardwiredZero_of_plain _ hz]
  · exact (x_eq_gpr_of_plain (withBoth _ s) hz 0).trans (by simp)

/-- Settles O44, from what an instruction and a host write do to register 0 under each value of the parameter. -/
theorem registerZeroTreatment : Obligations.RegisterZeroTreatment := by
  refine fun s => ⟨fun hz => ⟨x_zero_of_hardwired s hz, fun i t h => ?_, hostWriteRegister_zero_of_hardwired s hz⟩,
    fun hz => ⟨x_eq_gpr_of_plain s hz 0, fun i t h => exec_x_zero_of_plain i s t hz h, hostWriteRegister_zero_of_plain s hz⟩⟩
  refine ⟨x_zero_of_hardwired t (exec_cfg i s t h ▸ hz), exec_x_of_dest_zero i s t hz h, fun ⟨_, _, _, _, hstored⟩ => ?_⟩
  rw [exec_nxt i s t h, exec_gpr_zero i s t hz h]
  exact ⟨hstored hz, hstored hz⟩

/-! ## HI and LO -/

/-- An instruction that does not read HI or LO shows the same registers, pc, memory and run state whatever they held. -/
theorem exec_withHiLo_same (i : Instr) (s t t' : State) (a b : Word) (hi : readsHiLo i = false) (h : exec i s = .next t)
    (h' : exec i (withHiLo a b s) = .next t') :
    (∀ r : Reg, t'.x r = t.x r) ∧ t'.pc = t.pc ∧ t'.mem = t.mem ∧ t'.run = t.run := by
  have herased := erasedNext_exec_withHiLo i s a b hi
  rw [h, h'] at herased
  have he : eraseHiLo t' = eraseHiLo t := Option.some.inj herased
  exact ⟨fun r => congrArg (·.x r) he, congrArg (·.pc) he, congrArg (·.mem) he, congrArg (·.run) he⟩

/-- Where MULT, MULTU, DIV or DIVU commits, neither HI nor LO depends on what they held. -/
theorem exec_withHiLo_written (i : Instr) (s t t' : State) (a b : Word) (hhi : writesHi i = true) (hlo : writesLo i = true)
    (hrun : t.run = .running) (h : exec i s = .next t) (h' : exec i (withHiLo a b s) = .next t') :
    t'.hi = t.hi ∧ t'.lo = t.lo := by
  rcases exec_mulDiv_withHiLo i s hhi hlo with ⟨f, hf⟩ | ⟨hi, lo, hcommit⟩
  · obtain rfl := raise_next f s t ((hf s.hi s.lo).symm.trans h)
    simp at hrun
  · obtain rfl : commit false _ = t := Host.Outcome.next.inj ((hcommit s.hi s.lo).symm.trans h)
    obtain rfl : commit false _ = t' := Host.Outcome.next.inj ((hcommit a b).symm.trans h')
    exact ⟨rfl, rfl⟩

/-- HI and LO survive every instruction that is not one of their writers. -/
theorem exec_hiLo_kept (i : Instr) (s t : State) (h : exec i s = .next t) :
    (writesHi i = false → t.hi = s.hi) ∧ (writesLo i = false → t.lo = s.lo) := by
  rcases exec_cases i s t h with ⟨f, rfl⟩ | hc
  · exact ⟨fun _ => rfl, fun _ => rfl⟩
  · exact ⟨hc.hi, hc.lo⟩

/-- What the four moves leave in their destination. -/
theorem exec_hiLo_moves (s t : State) :
    (∀ rs, exec (.mthi rs) s = .next t → t.hi = s.x rs) ∧
    (∀ rs, exec (.mtlo rs) s = .next t → t.lo = s.x rs) ∧
    (∀ rd, exec (.mfhi rd) s = .next t → hardwiredZero s.cfg rd = false → t.x rd = s.hi) ∧
    (∀ rd, exec (.mflo rd) s = .next t → hardwiredZero s.cfg rd = false → t.x rd = s.lo) := by
  have not_zero (rd : Reg) (hrd : hardwiredZero s.cfg rd = false) : ¬ (rd = 0 ∧ s.cfg.r0Hardwired = true) := by
    rw [← hardwiredZero_iff, hrd]
    exact Bool.false_ne_true
  refine ⟨fun rs h => ?_, fun rs h => ?_, fun rd h hrd => ?_, fun rd h hrd => ?_⟩ <;>
    obtain rfl : commit false _ = t := Host.Outcome.next.inj h
  · rfl
  · rfl
  · exact (writesRegister_setX rd s.hi s).dest.trans (if_neg (not_zero rd hrd))
  · exact (writesRegister_setX rd s.lo s).dest.trans (if_neg (not_zero rd hrd))

/-- Settles O40: what each instruction leaves in HI and LO, and its other effects compared from two states that differ in HI and LO
only. -/
theorem hiLoOnlyByTheirInstructions : Obligations.HiLoOnlyByTheirInstructions := by
  intro i s t h
  obtain ⟨hhi, hlo⟩ := exec_hiLo_kept i s t h
  obtain ⟨hmthi, hmtlo, hmfhi, hmflo⟩ := exec_hiLo_moves s t
  exact ⟨hhi, hlo, fun rs hi => hmthi rs (hi ▸ h), fun rs hi => hmtlo rs (hi ▸ h), fun rd hi => hmfhi rd (hi ▸ h),
    fun rd hi => hmflo rd (hi ▸ h), fun a b t' h' => ⟨fun hr => exec_withHiLo_same i s t t' a b hr h h',
      fun hwhi hwlo hrun => exec_withHiLo_written i s t t' a b hwhi hwlo hrun h h'⟩⟩

/-! ## Reset -/

theorem Snapshot.initial_gpr (pc : Word) (r : Reg) : (Snapshot.initial pc).gpr[r] = 0#32 := Vector.getElem_replicate _

/-- Settles O55: every register of the initial snapshot and every byte of the empty memory is 0, mapped or not. -/
theorem resetValues : Obligations.ResetValues := by
  refine ⟨?_, rfl⟩
  rintro c s rfl
  have hgpr := Snapshot.initial_gpr c.textBase
  have hx (r : Reg) : (if hardwiredZero c r then 0#32 else (Snapshot.initial c.textBase).gpr[r]) = 0#32 := by
    rw [hgpr, ite_self]
  exact ⟨hx, hgpr, rfl, rfl, rfl, rfl, fun _ => ite_self _, rfl, rfl, rfl⟩

end Sys2Proof.Machine
end

section
/-!
The memory family (spec/20_memory.md): what a store commits, said once as the word `write32` stores and once byte by byte
(`StoresBytes`), and from it the frame of memory, the invariant, and that loads and fetches see a store.
-/

namespace Sys2Proof.Machine

/-! ## The word primitives -/

/-- `write32` changes memory only. -/
theorem write32_eq_with_mem (addr v : Word) (s : State) :
    write32 addr v s = { s with mem := (write32 addr v s).mem } := by
  unfold write32
  split <;> rfl

/-- The start of the cycle makes no difference to what a word write leaves in memory. -/
theorem write32_beginCycle_mem (addr v : Word) (s : State) :
    (write32 addr v (beginCycle s)).mem = (write32 addr v s).mem := by
  rw [write32_mem, write32_mem]
  rfl

/-- The byte at an address is its lane of the containing word (spec/20_memory.md R44). -/
theorem byteAt_eq_lane (s : State) (hc : s.cfg.wf) (a : Word) :
    byteAt s a.toNat = (read32 s (a &&& 0xFFFFFFFC#32)).extractLsb' (8 * (a.toNat % 4)) 8 := by
  rw [← memReadByte_eq s hc, memReadByte, byteOfWord_lane, byteLane_eq]
  rfl

/-- Settles O46: at an aligned address the keys of the four bytes are the four addresses from it upward. -/
theorem wordPrimitives : Obligations.WordPrimitives := by
  intro s addr v ⟨hcfg, hmem, _⟩ ha
  have hkey (i : Nat) (hi : i < 4) : addr.toNat + i = byteKey addr i := (byteKey_of_aligned addr i hi ha).symm
  refine ⟨fun hmap => ⟨fun i hi => ?_, fun i hi => ?_, fun a hout => ?_, write32_eq_with_mem addr v s⟩,
    fun hmap => ⟨read32_unmapped s addr hmap, write32_unmapped addr v s hmap⟩, byteAt_eq_lane s hcfg⟩
  · rw [hkey i hi, read32_byte s addr hmap i hi]
  · rw [hkey i hi, write32_read_byte addr v s hmem hmap i hi]
  · exact write32_read_other addr v s a fun i hi => hkey i hi ▸ hout i hi

/-! ## Unmapped reads -/

theorem memReadHalf_unmapped (s : State) (hc : s.cfg.wf) (ea : Word) (hmap : mappedIn s.cfg ea.toNat = false) :
    memReadHalf s ea = 0#16 := by
  rw [memReadHalf, halfOfWord_lanes, read32_unmapped _ _ ((mappedIn_wordAddr _ hc ea).trans hmap)]
  simp

theorem memReadByte_unmapped (s : State) (hc : s.cfg.wf) (ea : Word) (hmap : mappedIn s.cfg ea.toNat = false) :
    memReadByte s ea = 0#8 := by
  simp [memReadByte_eq s hc, byteAt, hmap]

/-! ## A store, byte by byte -/

/-- A committed word write is a store of the bytes it leaves at `ea`, if it leaves every other byte as it was. -/
theorem storesBytes_of_write32 (a v ea : Word) (n : Nat) (b : Nat → Byte) (s : State)
    (hmap : mappedIn s.cfg a.toNat = mappedIn s.cfg ea.toNat)
    (hstored : mappedIn s.cfg ea.toNat = true → ∀ i, i < n →
      (write32 a v (beginCycle s)).mem.read (byteKey ea i) = b i)
    (hothers : ∀ c, ¬ InBytes ea n c → (write32 a v (beginCycle s)).mem.read c = s.mem.read c) :
    StoresBytes s (commit false (write32 a v (beginCycle s))) ea n b where
  retired := retired_commit s _ (by simp) (by simp)
  regs := { gprs := x_congr s _ (by simp) (by simp), hi := by simp [State.hi], lo := by simp [State.lo] }
  pc := by simp [State.pc, pcPlus4]
  stored := hstored
  dropped := fun hun => sameBytes_of_mem _ _ (by
    rw [commit_mem, write32_beginCycle_mem, write32_unmapped _ _ _ (hmap.trans hun)])
  others := hothers

/-- SW's commit (spec/45_load_store.md R174). -/
theorem storesBytes_write32 (ea v : Word) (s : State) (hm : s.mem.wf) :
    StoresBytes s (commit false (write32 ea v (beginCycle s))) ea 4 (fun i => v.extractLsb' (8 * i) 8) :=
  storesBytes_of_write32 ea v ea 4 _ s rfl (write32_read_byte ea v (beginCycle s) hm)
    fun c hout => write32_read_other ea v (beginCycle s) c fun i hi he => hout ⟨i, hi, he⟩

/-- SH's commit (R175). -/
theorem storesBytes_memWriteHalf (ea : Word) (w : Half) (s : State) (hc : s.cfg.wf) (hm : s.mem.wf)
    (he : ea.toNat % 2 = 0) :
    StoresBytes s (commit false (memWriteHalf ea w (beginCycle s))) ea 2 (fun i => w.extractLsb' (8 * i) 8) := by
  have hread := memWriteHalf_read ea w (beginCycle s) hc hm he
  refine storesBytes_of_write32 _ _ ea 2 _ s (mappedIn_wordAddr _ hc ea) (fun hmap i hi => (hread _).trans ?_)
    fun c hout => (hread c).trans ?_
  · have hne : byteKey ea 1 ≠ ea.toNat := fun h =>
      absurd (byteKey_inj ea 1 0 (by omega) (by omega) (h.trans (byteKey_zero ea).symm)) (by omega)
    rcases (by omega : i = 0 ∨ i = 1) with rfl | rfl
    · simp [hmap, byteKey_zero]
    · simp [hmap, hne]
  · have h0 : c ≠ ea.toNat := fun h => hout ⟨0, by omega, h.trans (byteKey_zero ea).symm⟩
    have h1 : c ≠ byteKey ea 1 := fun h => hout ⟨1, by omega, h⟩
    simp [h0, h1]

/-- SB's commit (R176). -/
theorem storesBytes_memWriteByte (ea : Word) (b : Byte) (s : State) (hc : s.cfg.wf) (hm : s.mem.wf) :
    StoresBytes s (commit false (memWriteByte ea b (beginCycle s))) ea 1 (fun _ => b) := by
  have hread := memWriteByte_read ea b (beginCycle s) hc hm
  refine storesBytes_of_write32 _ _ ea 1 _ s (mappedIn_wordAddr _ hc ea) (fun hmap i hi => (hread _).trans ?_)
    fun c hout => (hread c).trans ?_
  · obtain rfl : i = 0 := by omega
    simp [hmap, byteKey_zero]
  · have h0 : c ≠ ea.toNat := fun h => hout ⟨0, by omega, h.trans (byteKey_zero ea).symm⟩
    simp [h0]

/-! ## What an instruction leaves in memory -/

/-- A store faults, or commits one word write to the word that contains its effective address, and that changes only the bytes
stored (spec/45_load_store.md R179). -/
theorem exec_store_cases (i : Instr) (s t : State) (ea : Word) (n : Nat) (hc : s.cfg.wf) (hm : s.mem.wf)
    (hst : storeTarget i s = some (ea, n)) (h : exec i s = .next t) :
    (∃ f, t = { s with nxt := s.cur, run := .halted (.fault f) }) ∨
      ∃ v b, t = commit false (write32 (wordAddr ea) v (beginCycle s)) ∧ StoresBytes s t ea n b := by
  cases i with
  | sw rt imm rs =>
    obtain ⟨rfl, rfl⟩ : eaOf rs imm s = ea ∧ 4 = n := by simpa [storeTarget] using hst
    simp only [exec, execSw] at h
    split at h
    · next ha =>
      obtain rfl := Host.Outcome.next.inj h
      have hword := wordAddr_of_aligned _ ((wordAligned_iff _).mp ha)
      exact .inr ⟨_, _, by rw [hword], storesBytes_write32 _ _ s hm⟩
    · exact .inl ⟨_, raise_next _ s t h⟩
  | sh rt imm rs =>
    obtain ⟨rfl, rfl⟩ : eaOf rs imm s = ea ∧ 2 = n := by simpa [storeTarget] using hst
    simp only [exec, execSh] at h
    split at h
    · next he =>
      obtain rfl := Host.Outcome.next.inj h
      exact .inr ⟨_, _, rfl, storesBytes_memWriteHalf _ _ s hc hm ((halfAligned_iff _).mp he)⟩
    · exact .inl ⟨_, raise_next _ s t h⟩
  | sb rt imm rs =>
    obtain ⟨rfl, rfl⟩ : eaOf rs imm s = ea ∧ 1 = n := by simpa [storeTarget] using hst
    obtain rfl := Host.Outcome.next.inj h
    exact .inr ⟨_, _, rfl, storesBytes_memWriteByte _ _ s hc hm⟩
  | _ => simp [storeTarget] at hst

/-- What an instruction leaves in memory: what was there, or one word write at a store's effective address. -/
theorem exec_mem (i : Instr) (s t : State) (hc : s.cfg.wf) (hm : s.mem.wf) (h : exec i s = .next t) :
    t.mem = s.mem ∨ ∃ ea n v, storeTarget i s = some (ea, n) ∧ t.mem = (write32 (wordAddr ea) v s).mem := by
  cases hst : storeTarget i s with
  | none =>
    rcases exec_cases i s t h with ⟨f, rfl⟩ | hcommit
    · exact .inl rfl
    · exact .inl (hcommit.mem hst)
  | some target =>
    obtain ⟨ea, n⟩ := target
    rcases exec_store_cases i s t ea n hc hm hst h with ⟨f, rfl⟩ | ⟨v, b, rfl, -⟩
    · exact .inl rfl
    · exact .inr ⟨ea, n, v, rfl, write32_beginCycle_mem _ _ s⟩

/-- A store to an unmapped address leaves memory itself as it was (spec/20_memory.md R50). -/
theorem exec_store_unmapped (i : Instr) (s t : State) (ea : Word) (n : Nat) (hc : s.cfg.wf)
    (hm : s.mem.wf) (hst : storeTarget i s = some (ea, n)) (hmap : mappedIn s.cfg ea.toNat = false)
    (h : exec i s = .next t) : t.mem = s.mem := by
  rcases exec_mem i s t hc hm h with hmem | ⟨ea', n', v, hst', hmem⟩
  · exact hmem
  · obtain ⟨rfl, -⟩ : ea = ea' ∧ n = n' := by simpa [hst] using hst'
    rw [hmem, write32_unmapped _ _ _ ((mappedIn_wordAddr _ hc ea).trans hmap)]

/-- Settles O41: an instruction that is no store writes no word, and a store only the bytes `StoresBytes` names. -/
theorem onlyStoresChangeMemory : Obligations.OnlyStoresChangeMemory := by
  intro i s t ⟨hcfg, hmem, _⟩ h
  refine ⟨fun hst => ?_, fun ea n hst a hout => ?_⟩
  · rcases exec_mem i s t hcfg hmem h with hsame | ⟨ea, n, v, hsome, -⟩
    · exact sameBytes_of_mem s t hsame
    · simp [hst] at hsome
  · rcases exec_store_cases i s t ea n hcfg hmem hst h with ⟨f, rfl⟩ | ⟨v, b, -, hb⟩
    · rfl
    · exact hb.others a hout

/-! ## The invariant -/

/-- A precise fault keeps the invariant. -/
theorem coreInv_fault (f : Fault) (s : State) (hs : CoreInv s) :
    CoreInv { s with nxt := s.cur, run := .halted (.fault f) } := by
  obtain ⟨hcfg, hmem, hin, -, hzero⟩ := hs
  exact ⟨hcfg, hmem, hin, rfl, hzero⟩

/-- Every instruction keeps the invariant: a store writes a whole aligned word, which lies in one region or in none. -/
theorem exec_keeps_coreInv (i : Instr) (s t : State) (hs : CoreInv s) (h : exec i s = .next t) : CoreInv t := by
  obtain ⟨hcfg, hwf, hin, -, hzero⟩ := hs
  obtain ⟨hwf', hin'⟩ : t.mem.wf ∧ ∀ c ∈ t.mem, mappedIn s.cfg c.1 = true := by
    rcases exec_mem i s t hcfg hwf h with hmem | ⟨ea, n, v, -, hmem⟩ <;> rw [hmem]
    · exact ⟨hwf, hin⟩
    · exact ⟨write32_wf _ v s hwf, write32_mapped _ v s hcfg (wordAddr_aligned ea) hin⟩
  rw [CoreInv, exec_cfg i s t h]
  exact ⟨hcfg, hwf', hin', exec_nxt i s t h, fun hz => (exec_gpr_zero i s t hz h).trans (hzero hz)⟩

/-- Settles O53: a step does nothing, takes a fault of the fetch stage, or runs one instruction. -/
theorem invKeptByEveryStep : Obligations.InvKeptByEveryStep := by
  intro s t hs h
  rcases step_cases s with ⟨-, hstep⟩ | ⟨-, f, -, hstep⟩ | ⟨-, i, -, hstep⟩ <;> rw [hstep] at h
  · injection h with h
    exact h ▸ hs
  · rw [raise_next f s t h]
    exact coreInv_fault f s hs
  · exact exec_keeps_coreInv i s t hs h

/-! ## Loads and stores at unmapped addresses -/

/-- What LW, LH and LB compute from an unmapped address (spec/20_memory.md R50). -/
theorem resultOf_load_unmapped (i : Instr) (rt rs : Reg) (imm : Half) (s : State) (hc : s.cfg.wf)
    (hi : i = .lw rt imm rs ∨ i = .lh rt imm rs ∨ i = .lb rt imm rs)
    (hmap : mappedIn s.cfg (eaOf rs imm s).toNat = false) : resultOf i s = 0#32 := by
  rcases hi with rfl | rfl | rfl
  · exact read32_unmapped s _ hmap
  · simp [resultOf, memReadHalf_unmapped s hc _ hmap]
  · simp [resultOf, memReadByte_unmapped s hc _ hmap]

/-- A load that commits leaves memory alone, and reads 0 from an unmapped address. -/
theorem exec_load_harmless (i : Instr) (rt rs : Reg) (imm : Half) (s t : State) (hc : s.cfg.wf)
    (hi : i = .lw rt imm rs ∨ i = .lh rt imm rs ∨ i = .lb rt imm rs) (h : exec i s = .next t)
    (hrun : t.run = .running) :
    t.mem = s.mem ∧ (mappedIn s.cfg (eaOf rs imm s).toNat = false → t.x rt = 0#32) := by
  have hdest : destOf i = some rt := by rcases hi with rfl | rfl | rfl <;> rfl
  have hstore : storeTarget i s = none := by rcases hi with rfl | rfl | rfl <;> rfl
  rcases exec_cases i s t h with ⟨f, rfl⟩ | hcommit
  · simp at hrun
  · refine ⟨hcommit.mem hstore, fun hmap => ?_⟩
    rw [hcommit.dest rt hdest, resultOf_load_unmapped i rt rs imm s hc hi hmap, ite_self]

/-- Settles O47: the loads by the value they compute, the stores by the word write that is dropped. -/
theorem unmappedAccessIsHarmless : Obligations.UnmappedAccessIsHarmless := by
  rintro rt rs imm s t ea ⟨hcfg, hmem, -⟩ rfl hrun
  constructor
  · rintro (h | h | h) <;> exact exec_load_harmless _ rt rs imm s t hcfg (by simp) h hrun
  · rintro (h | h | h) hmap <;> exact exec_store_unmapped _ s t _ _ hcfg hmem rfl hmap h

/-! ## A store is seen by the next load and by the next fetch -/

theorem exec_sw_of_aligned (rt rs : Reg) (imm : Half) (s : State) (ha : (eaOf rs imm s).toNat % 4 = 0) :
    exec (.sw rt imm rs) s = .next (commit false (write32 (eaOf rs imm s) (s.x rt) (beginCycle s))) :=
  if_pos ((wordAligned_iff _).mpr ha)

theorem exec_lw_of_aligned (rt rs : Reg) (imm : Half) (s : State) (ha : (eaOf rs imm s).toNat % 4 = 0) :
    exec (.lw rt imm rs) s = .next (commit false (setX rt (read32 s (eaOf rs imm s)) (beginCycle s))) :=
  if_pos ((wordAligned_iff _).mpr ha)

theorem exec_sw_storesBytes (rt rs : Reg) (imm : Half) (s t : State) (hm : s.mem.wf)
    (ha : (eaOf rs imm s).toNat % 4 = 0) (h : exec (.sw rt imm rs) s = .next t) :
    StoresBytes s t (eaOf rs imm s) 4 (fun i => (s.x rt).extractLsb' (8 * i) 8) := by
  obtain rfl := Host.Outcome.next.inj ((exec_sw_of_aligned rt rs imm s ha).symm.trans h)
  exact storesBytes_write32 _ _ s hm

/-- After SW to a mapped multiple of 4, the word there is the one stored (spec/20_memory.md R46, R52). -/
theorem read32_exec_sw (rt rs : Reg) (imm : Half) (s t : State) (hm : s.mem.wf) (ha : (eaOf rs imm s).toNat % 4 = 0)
    (hmap : mappedIn s.cfg (eaOf rs imm s).toNat = true) (h : exec (.sw rt imm rs) s = .next t) :
    read32 t (eaOf rs imm s) = s.x rt := by
  obtain rfl := Host.Outcome.next.inj ((exec_sw_of_aligned rt rs imm s ha).symm.trans h)
  exact read32_write32 _ _ (beginCycle s) hm hmap

/-- Settles O50: the load answers what `read32` gives, and that is the word stored. -/
theorem storeThenLoadGivesTheWord : Obligations.StoreThenLoadGivesTheWord := by
  rintro rt rs rd rb imm off s t ea ⟨-, hm, -⟩ rfl ha hmap h hbase
  have hea : eaOf rb off t = eaOf rs imm s := hbase
  have hload := exec_lw_of_aligned rd rb off t (hea ▸ ha)
  rw [hea, read32_exec_sw rt rs imm s t hm ha hmap h] at hload
  exact ⟨_, hload, writesRegister_setX rd (s.x rt) t⟩

/-- A core that is not halted runs the instruction it fetches. -/
theorem step_of_fetchDecode_ok (s : State) (i : Instr) (hrun : isHalted s.run = false) (hi : fetchDecode s = .ok i) :
    step s = exec i s := by
  simp [step, hrun, hi]

/-- Settles O51: SW leaves the pc at the word it stored, and the fetch there reads memory as the store left it. -/
theorem storeIsSeenByTheNextFetch : Obligations.StoreIsSeenByTheNextFetch := by
  rintro rt rs imm s t ⟨-, hm, -⟩ hpc hea hmap h
  have hnext : (s.pc + 4#32).toNat % 4 = 0 := add_aligned s.pc 4#32 hpc rfl
  have heaOf : eaOf rs imm s = s.pc + 4#32 := hea
  have hword := read32_exec_sw rt rs imm s t hm (heaOf ▸ hnext) (heaOf ▸ hmap) h
  have hstore := exec_sw_storesBytes rt rs imm s t hm (heaOf ▸ hnext) h
  have hrun : isHalted t.run = false := by rw [hstore.retired.run]; rfl
  rw [heaOf, ← hstore.pc] at hword
  refine ⟨hword, fun i hi => step_of_fetchDecode_ok t i hrun ((fetchDecode_eq_ok t i).mpr ⟨?_, ?_⟩)⟩
  · rw [hstore.pc]
    exact hnext
  · rw [hword]
    exact hi

end Sys2Proof.Machine
end

section
/-!
The encoding family (spec/30_encoding.md), the decoder: where the fields stand, what a mask over the fields keeps, that `decode` undoes
`encode` and reads the used bits only, that the word fixes its row of the opcode map, and which words no row matches.
-/

namespace Sys2Proof

/-! ## Where the fields stand (R61, R62, R63) -/

theorem fieldOpcode_toNat (w : Word) : (fieldOpcode w).toNat = w.toNat / 2 ^ 26 := by
  have := w.isLt
  simp only [fieldOpcode, BitVec.extractLsb'_toNat, Nat.shiftRight_eq_div_pow]
  omega

/-- A field of `len` bits from bit `lo` up, as a number. -/
theorem extract_toNat (w : Word) (lo len : Nat) : (w.extractLsb' lo len).toNat = w.toNat / 2 ^ lo % 2 ^ len := by
  rw [BitVec.extractLsb'_toNat, Nat.shiftRight_eq_div_pow]

/-- A field of `len` bits from bit 0 up, as a number. -/
theorem extract_zero_toNat (w : Word) (len : Nat) : (w.extractLsb' 0 len).toNat = w.toNat % 2 ^ len := by
  rw [extract_toNat, pow_zero, Nat.div_one]

/-- Settles O5: each field is a quotient of the word cut to the field's width, and above the opcode there is nothing to cut. -/
theorem fieldPositionsInTheWord : Obligations.FieldPositionsInTheWord := fun w =>
  ⟨fieldOpcode_toNat w, extract_toNat w 21 5, extract_toNat w 16 5, extract_toNat w 11 5, extract_toNat w 6 5,
    extract_zero_toNat w 6, extract_zero_toNat w 16, extract_zero_toNat w 26⟩

/-! ## decode of encode -/

/-- A packed R-format word is looked up by its funct. -/
theorem decodeInstr_packR (rs rt rd : Reg) (sa : BitVec 5) (fn : BitVec 6) :
    decodeInstr (packR rs rt rd sa fn) = decodeSpecial (packR rs rt rd sa fn) := by
  simp [decodeInstr]

/-- A packed I-format word of opcode 1 is looked up by its rt. -/
theorem decodeInstr_packI_regimm (rs rt : Reg) (imm : Half) :
    decodeInstr (packI 0x01#6 rs rt imm) = decodeRegimm (packI 0x01#6 rs rt imm) := by
  simp [decodeInstr]

/-- The two-level lookup finds every instruction in its own word. -/
theorem decodeInstr_encode (i : Instr) : decodeInstr (encode i) = some i := by
  cases i with
  | add | addu | sub | subu | and | or | xor | nor | slt | sll | srl | sra | mult | multu | div | divu
  | mfhi | mflo | mthi | mtlo | jr | jalr | syscall =>
    simp [encode, decodeInstr_packR, decodeSpecial]
  | bltz | bgez => simp [encode, decodeInstr_packI_regimm, decodeRegimm, packI_bits_rt, bitsOfReg]
  | addi | addiu | slti | andi | ori | xori | lui | lw | lh | lb | sw | sh | sb | beq | bne | blez | bgtz =>
    simp [encode, decodeInstr]
  | j | jal => simp [encode, decodeInstr]

/-- Settles O1: each format's packing gives its fields back, so the lookup finds the instruction with its operands. -/
theorem decodeOfEncodeIsTheInstruction : Obligations.DecodeOfEncodeIsTheInstruction := fun i =>
  (decode_known_iff _ i).mpr (decodeInstr_encode i)

/-! ## The used bits of a word fix what it decodes to -/

section
variable {w m e : Word} (h : w &&& m = e)
include h

theorem fieldOpcode_of_masked (hm : m.extractLsb' 26 6 = BitVec.allOnes 6) : fieldOpcode w = fieldOpcode e :=
  field_of_masked w m e h 26 6 hm

theorem fieldFunct_of_masked (hm : m.extractLsb' 0 6 = BitVec.allOnes 6) : fieldFunct w = fieldFunct e :=
  field_of_masked w m e h 0 6 hm

theorem fieldShamt_of_masked (hm : m.extractLsb' 6 5 = BitVec.allOnes 5) : fieldShamt w = fieldShamt e :=
  field_of_masked w m e h 6 5 hm

theorem fieldImm_of_masked (hm : m.extractLsb' 0 16 = BitVec.allOnes 16) : fieldImm w = fieldImm e :=
  field_of_masked w m e h 0 16 hm

theorem fieldTarget_of_masked (hm : m.extractLsb' 0 26 = BitVec.allOnes 26) : fieldTarget w = fieldTarget e :=
  field_of_masked w m e h 0 26 hm

theorem fieldRs_of_masked (hm : m.extractLsb' 21 5 = BitVec.allOnes 5) : fieldRs w = fieldRs e :=
  congrArg regOfBits (field_of_masked w m e h 21 5 hm)

theorem fieldRt_of_masked (hm : m.extractLsb' 16 5 = BitVec.allOnes 5) : fieldRt w = fieldRt e :=
  congrArg regOfBits (field_of_masked w m e h 16 5 hm)

theorem fieldRd_of_masked (hm : m.extractLsb' 11 5 = BitVec.allOnes 5) : fieldRd w = fieldRd e :=
  congrArg regOfBits (field_of_masked w m e h 11 5 hm)

end

/-- The fields the lookup reads are used bits, so they are the encoding's fields, and it finds the instruction. -/
theorem decodeInstr_of_usedBits (w : Word) (i : Instr) (h : w &&& usedBits i = encode i) : decodeInstr w = some i := by
  cases i with
  | add | addu | sub | subu | and | or | xor | nor | slt =>
    change w &&& 0xFFFFF83F#32 = packR .. at h
    simp [decodeInstr, decodeSpecial, fieldOpcode_of_masked h rfl, fieldFunct_of_masked h rfl, fieldRd_of_masked h rfl,
      fieldRs_of_masked h rfl, fieldRt_of_masked h rfl]
  | sll | srl | sra =>
    change w &&& 0xFC1FFFFF#32 = packR .. at h
    simp [decodeInstr, decodeSpecial, fieldOpcode_of_masked h rfl, fieldFunct_of_masked h rfl, fieldRd_of_masked h rfl,
      fieldRt_of_masked h rfl, fieldShamt_of_masked h rfl]
  | mult | multu | div | divu =>
    change w &&& 0xFFFF003F#32 = packR .. at h
    simp [decodeInstr, decodeSpecial, fieldOpcode_of_masked h rfl, fieldFunct_of_masked h rfl, fieldRs_of_masked h rfl,
      fieldRt_of_masked h rfl]
  | mfhi | mflo =>
    change w &&& 0xFC00F83F#32 = packR .. at h
    simp [decodeInstr, decodeSpecial, fieldOpcode_of_masked h rfl, fieldFunct_of_masked h rfl, fieldRd_of_masked h rfl]
  | mthi | mtlo | jr =>
    change w &&& 0xFFE0003F#32 = packR .. at h
    simp [decodeInstr, decodeSpecial, fieldOpcode_of_masked h rfl, fieldFunct_of_masked h rfl, fieldRs_of_masked h rfl]
  | jalr =>
    change w &&& 0xFFE0F83F#32 = packR .. at h
    simp [decodeInstr, decodeSpecial, fieldOpcode_of_masked h rfl, fieldFunct_of_masked h rfl, fieldRd_of_masked h rfl,
      fieldRs_of_masked h rfl]
  | syscall =>
    change w &&& 0xFC00003F#32 = packR .. at h
    simp [decodeInstr, decodeSpecial, fieldOpcode_of_masked h rfl, fieldFunct_of_masked h rfl]
  | addi | addiu | slti | andi | ori | xori | lw | lh | lb | sw | sh | sb | beq | bne =>
    change w &&& 0xFFFFFFFF#32 = packI .. at h
    simp [decodeInstr, fieldOpcode_of_masked h rfl, fieldRs_of_masked h rfl, fieldRt_of_masked h rfl,
      fieldImm_of_masked h rfl]
  | bltz | bgez =>
    change w &&& 0xFFFFFFFF#32 = packI .. at h
    simp [decodeInstr, decodeRegimm, fieldOpcode_of_masked h rfl, field_of_masked _ _ _ h 16 5 rfl, packI_bits_rt,
      bitsOfReg, fieldRs_of_masked h rfl, fieldImm_of_masked h rfl]
  | lui =>
    change w &&& 0xFC1FFFFF#32 = packI .. at h
    simp [decodeInstr, fieldOpcode_of_masked h rfl, fieldRt_of_masked h rfl, fieldImm_of_masked h rfl]
  | blez | bgtz =>
    change w &&& 0xFFE0FFFF#32 = packI .. at h
    simp [decodeInstr, fieldOpcode_of_masked h rfl, fieldRs_of_masked h rfl, fieldImm_of_masked h rfl]
  | j | jal =>
    change w &&& 0xFFFFFFFF#32 = packJ .. at h
    simp [decodeInstr, fieldOpcode_of_masked h rfl, fieldTarget_of_masked h rfl]

/-! ## A decoded word agrees with its encoding on the used bits -/

theorem and_ones16 (b : Half) : b &&& 65535#16 = b := BitVec.and_allOnes

theorem and_ones5 (b : BitVec 5) : b &&& 31#5 = b := BitVec.and_allOnes

theorem regOfBits_zero : regOfBits 0#5 = 0 := rfl

theorem regOfBits_one : regOfBits 1#5 = 1 := rfl

/-- A word of opcode 0 under a mask is the packing of its masked fields. -/
theorem and_eq_packR (w m : Word) (hop : fieldOpcode w = 0#6) :
    w &&& m = packR (regOfBits (bitsOfReg (fieldRs w) &&& m.extractLsb' 21 5))
      (regOfBits (bitsOfReg (fieldRt w) &&& m.extractLsb' 16 5)) (regOfBits (bitsOfReg (fieldRd w) &&& m.extractLsb' 11 5))
      (fieldShamt w &&& fieldShamt m) (fieldFunct w &&& fieldFunct m) := by
  have hand := (congrArg₂ (· &&& ·) (word_eq_fieldsR w) (word_eq_fieldsR m)).trans (and_fieldsR ..)
  rwa [hop, BitVec.zero_and] at hand

/-- A word under a mask that keeps its opcode is the packing of its opcode and its masked I-format fields. -/
theorem and_eq_packI (w m : Word) (hm : fieldOpcode m = BitVec.allOnes 6) :
    w &&& m = packI (fieldOpcode w) (regOfBits (bitsOfReg (fieldRs w) &&& m.extractLsb' 21 5))
      (regOfBits (bitsOfReg (fieldRt w) &&& m.extractLsb' 16 5)) (fieldImm w &&& fieldImm m) := by
  have hand := (congrArg₂ (· &&& ·) (word_eq_fieldsI w) (word_eq_fieldsI m)).trans (and_fieldsI ..)
  rwa [hm, BitVec.and_allOnes] at hand

/-- Opcode 0: the funct found and the fields read are the used bits, and the mask turns every other field to 0 as `encode` does. -/
theorem usedBits_of_decodeSpecial (w : Word) (i : Instr) (hop : fieldOpcode w = 0#6) (h : decodeSpecial w = some i) :
    w &&& usedBits i = encode i := by
  unfold decodeSpecial at h
  split at h <;> cases h <;>
  next hfn =>
    simp only [usedBits, encode]
    rw [and_eq_packR w _ hop, hfn]
    simp [fieldShamt, fieldFunct, and_ones5, regOfBits_bitsOfReg, regOfBits_zero]

/-- Opcode 1: the rt found is part of the encoding. -/
theorem usedBits_of_decodeRegimm (w : Word) (i : Instr) (hop : fieldOpcode w = 1#6) (h : decodeRegimm w = some i) :
    w &&& usedBits i = encode i := by
  unfold decodeRegimm at h
  split at h <;> cases h <;>
  next hrt =>
    simp only [usedBits, encode]
    rw [and_eq_packI w _ rfl, hop, fieldRt, hrt]
    simp [fieldImm, and_ones5, and_ones16, regOfBits_bitsOfReg, regOfBits_zero, regOfBits_one]

/-- A word agrees on the used bits with the instruction the lookup finds. -/
theorem usedBits_of_decodeInstr (w : Word) (i : Instr) (h : decodeInstr w = some i) : w &&& usedBits i = encode i := by
  unfold decodeInstr at h
  split at h
  case h_1 hop => exact usedBits_of_decodeSpecial w i hop h
  case h_2 hop => exact usedBits_of_decodeRegimm w i hop h
  all_goals cases h
  case h_3 hop | h_4 hop =>
    refine BitVec.and_allOnes.trans ((word_eq_fieldsJ w).trans ?_)
    rw [hop]
    rfl
  all_goals next hop =>
    simp only [usedBits, encode]
    rw [and_eq_packI w _ rfl, hop]
    simp [fieldImm, and_ones5, and_ones16, regOfBits_bitsOfReg, regOfBits_zero]

/-- Settles O2: what the lookup reads of a word is what the mask of used bits keeps. -/
theorem decodeReadsExactlyTheUsedBits : Obligations.DecodeReadsExactlyTheUsedBits := fun w i =>
  (decode_known_iff w i).trans ⟨usedBits_of_decodeInstr w i, decodeInstr_of_usedBits w i⟩

/-! ## The row of a word -/

/-- The mask of the rows of an opcode's class (R65): opcode and funct, opcode and rt, or opcode alone. -/
def classMask (op : BitVec 6) : Word :=
  if op = 0x00#6 then 0xFC00003F#32 else if op = 0x01#6 then 0xFC1F0000#32 else 0xFC000000#32

/-- Rows of one opcode share the mask of its class. -/
theorem opcodeRow_mask (k : Instr) : (opcodeRow k).1 = classMask (fieldOpcode (opcodeRow k).2) := by
  cases k <;> (simp only [opcodeRow]; rfl)

theorem classMask_keeps_opcode (op : BitVec 6) : (classMask op).extractLsb' 26 6 = BitVec.allOnes 6 := by
  unfold classMask
  split
  · rfl
  · split <;> rfl

/-- A word fixes the row it matches: its opcode gives the mask, and the mask the match. -/
theorem opcodeRow_of_match (w : Word) (k : Instr) (h : w &&& (opcodeRow k).1 = (opcodeRow k).2) :
    opcodeRow k = (classMask (fieldOpcode w), w &&& classMask (fieldOpcode w)) := by
  have hmask := opcodeRow_mask k
  have hop : fieldOpcode w = fieldOpcode (opcodeRow k).2 :=
    fieldOpcode_of_masked h (hmask ▸ classMask_keeps_opcode _)
  rw [← hop] at hmask
  exact Prod.ext hmask (h.symm.trans (congrArg (w &&& ·) hmask))

/-- An instruction's row looks at used bits only. -/
theorem usedBits_and_mask (i : Instr) : usedBits i &&& (opcodeRow i).1 = (opcodeRow i).1 := by
  cases i <;> (simp only [usedBits, opcodeRow]; rfl)

/-- The word of an instruction matches its row. -/
theorem encode_matches_row (i : Instr) : encode i &&& (opcodeRow i).1 = (opcodeRow i).2 := by
  cases i with
  | add | addu | sub | subu | and | or | xor | nor | slt | sll | srl | sra | mult | multu | div | divu
  | mfhi | mflo | mthi | mtlo | jr | jalr | syscall => exact packR_and_mask ..
  | bltz | bgez => exact packI_and_regimm_mask ..
  | j | jal => exact packJ_and_mask ..
  | addi | addiu | slti | andi | ori | xori | lui | lw | lh | lb | sw | sh | sb | beq | bne | blez | bgtz =>
    exact packI_and_mask ..

/-- A word that agrees with an instruction on the used bits matches the instruction's row. -/
theorem matches_row_of_usedBits (w : Word) (i : Instr) (h : w &&& usedBits i = encode i) :
    w &&& (opcodeRow i).1 = (opcodeRow i).2 := by
  rw [← usedBits_and_mask i, ← BitVec.and_assoc, h, encode_matches_row i]

/-- Settles O3: a decoded word agrees with its instruction on the used bits, so it matches the instruction's row, and a word fixes the
row it matches. -/
theorem decodedWordsMatchTheirOpcodeRow : Obligations.DecodedWordsMatchTheirOpcodeRow := by
  intro w i h
  have hi := matches_row_of_usedBits w i ((decodeReadsExactlyTheUsedBits w i).mp h)
  exact ⟨hi, fun k hk => (opcodeRow_of_match w k hk).trans (opcodeRow_of_match w i hi).symm⟩

/-! ## The words no row matches (R67) -/

/-- The opcode numbers that R67 lists as selecting no row. -/
def UnlistedOpcode (n : Nat) : Prop :=
  n ∈ [0x0B, 0x22, 0x24, 0x25, 0x26, 0x27, 0x2A] ∨ (0x10 ≤ n ∧ n ≤ 0x1F) ∨ 0x2C ≤ n

/-- In the R-format class nothing is found exactly where the funct is not in the table. -/
theorem decodeSpecial_eq_none_iff (w : Word) :
    decodeSpecial w = none ↔ (fieldFunct w).toNat ∉
      [0x00, 0x02, 0x03, 0x08, 0x09, 0x0C, 0x10, 0x11, 0x12, 0x13, 0x18, 0x19, 0x1A, 0x1B, 0x20, 0x21, 0x22, 0x23,
       0x24, 0x25, 0x26, 0x27, 0x2A] := by
  unfold decodeSpecial
  split
  case h_24 => simp_all [← BitVec.toNat_inj]
  all_goals simp_all

/-- In the REGIMM class nothing is found exactly where rt is neither 0 nor 1. -/
theorem decodeRegimm_eq_none_iff (w : Word) :
    decodeRegimm w = none ↔ (w.extractLsb' 16 5).toNat ∉ [0x00, 0x01] := by
  unfold decodeRegimm
  split
  case h_3 => simp_all [← BitVec.toNat_inj]
  all_goals simp_all

/-- The two-level lookup finds nothing where the opcode selects no row, or the inner key of its class does not. In the default branch the
opcode differs from every number in the table, which leaves the listed ranges. -/
theorem decodeInstr_eq_none_iff (w : Word) :
    decodeInstr w = none ↔ UnlistedOpcode (fieldOpcode w).toNat ∨
      ((fieldOpcode w).toNat = 0x00 ∧ decodeSpecial w = none) ∨ ((fieldOpcode w).toNat = 0x01 ∧ decodeRegimm w = none) := by
  have hlt := (fieldOpcode w).isLt
  unfold decodeInstr UnlistedOpcode
  split
  case h_22 =>
    simp_all [← BitVec.toNat_inj]
    omega
  all_goals simp_all

/-- Settles O4: the lookup finds nothing by opcode, funct and rt, and these keys are the word's quotients. -/
theorem unknownWordsAreTheUnlistedOnes : Obligations.UnknownWordsAreTheUnlistedOnes := by
  refine ⟨fun w v h => ((decode_unknown_iff w v).mp h).2, fun w => ?_⟩
  have hnone := decodeInstr_eq_none_iff w
  rw [decodeSpecial_eq_none_iff, decodeRegimm_eq_none_iff, fieldOpcode_toNat, extract_toNat] at hnone
  simp only [fieldFunct, extract_zero_toNat] at hnone
  exact (decode_unknown_iff w w).trans ((and_iff_left rfl).trans hnone)

end Sys2Proof
end

section
/-!
The encoding family, the targets: the branch offset (spec/30_encoding.md R70) and the jump target (R71), as the pc they leave.
-/

namespace Sys2Proof.Machine

/-- The scaled immediate does not wrap. -/
theorem branchOffset_toInt (imm : Half) : (branchOffset imm).toInt = imm.toInt * 4 := by
  have hlow := BitVec.le_toInt imm
  have hhigh := BitVec.toInt_lt (x := imm)
  have hfour : (BitVec.twoPow 32 2).toInt = 4 := by decide
  rw [branchOffset, BitVec.shiftLeft_eq_mul_twoPow, BitVec.toInt_mul, sextImm_toInt, hfour]
  exact Int.bmod_eq_of_le (by omega) (by omega)

/-- A sign-extended immediate shifted over two zero bits is the 18-bit value sign-extended: both are four times the immediate. -/
theorem branchOffset_eq_signExtend (imm : Half) : branchOffset imm = (imm ++ 0#2 : BitVec 18).signExtend 32 := by
  apply BitVec.eq_of_toInt_eq
  rw [branchOffset_toInt, BitVec.toInt_signExtend_of_le (by omega), BitVec.toInt_append_zero, Int.mul_comm]
  rfl

/-- BEQ of a register with itself is taken. -/
theorem exec_beq_self_pc (r : Reg) (imm : Half) (s t : State) (h : exec (.beq r r imm) s = .next t) :
    t.pc = s.pc + 4#32 + branchOffset imm := by
  have hpc := branchIf_pc _ imm s t h
  rwa [condEq, decide_eq_true rfl, if_pos rfl] at hpc

/-- Settles O48: the taken branch adds `branchOffset imm` to `pc + 4`, and that is four times the immediate. -/
theorem branchOffsetValue : Obligations.BranchOffsetValue := by
  intro r imm s t boff h hboff
  obtain rfl : boff = branchOffset imm := by
    rw [hboff, exec_beq_self_pc r imm s t h, add_sub_cancel_left]
  have hlow := BitVec.le_toInt imm
  have hhigh := BitVec.toInt_lt (x := imm)
  have hint := branchOffset_toInt imm
  exact ⟨rfl, branchOffset_eq_signExtend imm, hint, by omega, by omega⟩

/-- J and JAL leave the pc at the jump target. -/
theorem exec_jump_pc (target : BitVec 26) (s t : State)
    (h : exec (.j target) s = .next t ∨ exec (.jal target) s = .next t) :
    t.pc = jumpTarget s.pc target := by
  rcases h with h | h <;>
  · injection h with h
    exact h ▸ rfl

/-- The mask of bits 31:28 keeps the base of the 256 MiB block. -/
theorem and_blockMask_toNat (pc : Word) : (pc &&& 0xF0000000#32).toNat = pc.toNat / 2 ^ 28 * 2 ^ 28 := by
  have hlt := pc.isLt
  have hshift : pc &&& 0xF0000000#32 = (pc >>> 28) <<< 28 := by
    refine BitVec.eq_of_getLsbD_eq fun i hi => ?_
    interval_cases i <;> simp
  rw [hshift, BitVec.toNat_shiftLeft, BitVec.toNat_ushiftRight, Nat.shiftRight_eq_div_pow, Nat.shiftLeft_eq]
  omega

/-- The target field over two zero bits is four times the field, without wrapping. -/
theorem target_shifted_toNat (target : BitVec 26) : (target.setWidth 32 <<< 2 : Word).toNat = target.toNat * 4 := by
  have hlt := target.isLt
  rw [BitVec.toNat_shiftLeft, BitVec.toNat_setWidth, Nat.shiftLeft_eq]
  omega

/-- A jump target is the base of its block and the 28 bits below it, which do not overlap. -/
theorem jumpTarget_toNat (pc : Word) (target : BitVec 26) :
    (jumpTarget pc target).toNat = pc.toNat / 2 ^ 28 * 2 ^ 28 + target.toNat * 4 := by
  have hlow : target.toNat * 4 < 2 ^ 28 := by
    have := target.isLt
    omega
  rw [jumpTarget_eq, BitVec.toNat_or, and_blockMask_toNat, target_shifted_toNat, ← Nat.shiftLeft_eq,
    Nat.shiftLeft_add_eq_or_of_lt hlow]

/-- Settles O49: both jumps leave `jumpTarget`, whose value is the block's base plus less than a block. -/
theorem jumpTargetBlock : Obligations.JumpTargetBlock := by
  intro target s t h
  have hlt := target.isLt
  have hval := jumpTarget_toNat s.pc target
  rw [exec_jump_pc target s t h]
  exact ⟨rfl, hval, jumpTarget_aligned s.pc target, by omega⟩

end Sys2Proof.Machine
end

section
/-!
The cycle family (spec/40_cycle.md): what a step does, by its three cases: in `Halted`, at a fault of the fetch stage, and at an
instruction fetched, with the word of an unmapped fetch and the pc a commit leaves to the next fetch.
-/

namespace Sys2Proof.Machine

/-! ## A step in `Halted` -/

theorem step_of_halted (s : State) (hrun : isHalted s.run = true) : step s = .next s := if_pos hrun

/-- `run(n)` of a halted core executes nothing. -/
theorem hostRun_of_halted (n : Nat) (s : State) (hrun : isHalted s.run = true) : hostRun n s = .next (s, 0) := by
  cases n with
  | zero => rfl
  | succ n => exact if_pos hrun

/-- Settles O33: a step, and each round of run(n), looks at `Halted` first. -/
theorem haltedCoreStaysPut : Obligations.HaltedCoreStaysPut := fun s hrun =>
  ⟨step_of_halted s hrun, fun n => hostRun_of_halted n s hrun⟩

/-! ## A step from a core that is not halted -/

/-- Settles O30: the fetch stage answers the instruction decoded, and a step runs what it answers. -/
theorem stepRunsTheDecodedInstruction : Obligations.StepRunsTheDecodedInstruction := fun s i hrun hpc hdec =>
  step_of_fetchDecode_ok s i hrun ((fetchDecode_eq_ok s i).mpr ⟨hpc, hdec⟩)

/-- A core that is not halted takes the fault of its fetch stage. -/
theorem step_of_fetchDecode_error (s : State) (f : Fault) (hrun : isHalted s.run = false) (hf : fetchDecode s = .error f) :
    ∃ t, step s = .next t ∧ TakesFault s t f := by
  have hstep : step s = raise f s := by simp [step, hrun, hf]
  rw [hstep]
  exact raise_spec f s

/-- Settles O31: the two faults the fetch stage can answer, each taken by the step. -/
theorem fetchStageFaults : Obligations.FetchStageFaults := fun s hrun =>
  ⟨fun hpc => step_of_fetchDecode_error s _ hrun ((fetchDecode_eq_error s _).mpr (.inl ⟨hpc, rfl⟩)),
    fun w hpc hdec => step_of_fetchDecode_error s _ hrun ((fetchDecode_eq_error s _).mpr (.inr ⟨hpc, w, hdec, rfl⟩))⟩

/-! ## The all-zero word -/

/-- The all-zero word is SLL 0, 0, 0 (spec/30_encoding.md R68). -/
theorem decode_zero : decode 0#32 = .known (.sll 0 0 0#5) :=
  decodeOfEncodeIsTheInstruction (.sll 0 0 0#5)

/-- Writing to a register the value it shows changes no register, so only the pc moves. -/
theorem WritesRegister.jumpsTo_of_same {s t : State} {d : Reg} {v pc' : Word} (h : WritesRegister s t d v pc')
    (hv : v = s.x d) : JumpsTo s t pc' where
  retired := h.retired
  regs := {
    gprs := fun r => by
      by_cases hr : r = d
      · subst hr
        rw [h.dest]
        split
        · next hz => exact (if_pos ((hardwiredZero_iff _ _).mpr hz)).symm
        · exact hv
      · exact h.others r hr
    hi := h.hi
    lo := h.lo }
  pc := h.pc
  bytes := h.bytes

/-- SLL of a register into itself by 0 places is a no-op, for register 0 under both values of `R0_HARDWIRED`. -/
theorem exec_sll_self_zero (r : Reg) (s : State) :
    ∃ t, exec (.sll r r 0#5) s = .next t ∧ JumpsTo s t (s.pc + 4#32) :=
  ⟨_, rfl, (writesRegister_setX r _ s).jumpsTo_of_same (BitVec.shiftLeft_zero _)⟩

/-- Settles O32: the unmapped word reads 0, which decodes to SLL 0, 0, 0, and that writes register 0 its own value. -/
theorem unmappedFetchIsNoOp : Obligations.UnmappedFetchIsNoOp := by
  intro s hrun hpc hmap
  have hdec : decode (read32 s s.pc) = .known (.sll 0 0 0#5) := by rw [read32_unmapped s s.pc hmap, decode_zero]
  rw [stepRunsTheDecodedInstruction s _ hrun hpc hdec]
  exact exec_sll_self_zero 0 s

/-! ## Every step answers -/

/-- Every instruction answers a next state: a fault's, or a commit's. -/
theorem exec_answers (i : Instr) (s : State) : ∃ t, exec i s = .next t := by
  rcases exec_shape i s with ⟨f, hf⟩ | ⟨u, hu, -⟩
  · exact ⟨_, hf⟩
  · exact ⟨_, hu⟩

/-- Settles O34: in each of the three cases of a step there is an answer, and none touches the configuration. -/
theorem stepAlwaysAnswers : Obligations.StepAlwaysAnswers := by
  intro s
  rcases step_cases s with ⟨-, hstep⟩ | ⟨-, f, -, hstep⟩ | ⟨-, i, -, hstep⟩ <;> rw [hstep]
  · exact ⟨s, rfl, rfl⟩
  · obtain ⟨t, ht, hfault⟩ := raise_spec f s
    exact ⟨t, ht, hfault.cfg⟩
  · obtain ⟨t, ht⟩ := exec_answers i s
    exact ⟨t, ht, exec_cfg i s t ht⟩

/-! ## The next pc and the fetch from it -/

/-- Settles O42: a commit leaves the pc of R84, and the fetch stage answers by that pc's alignment and the word there. -/
theorem pcUpdateRule : Obligations.PcUpdateRule := by
  intro i s t h hnofault
  rcases exec_cases i s t h with ⟨f, rfl⟩ | hc
  · exact absurd rfl (hnofault f)
  · rw [← hc.pc]
    refine ⟨rfl, fun _ => ?_⟩
    by_cases hpc : t.pc.toNat % 4 = 0
    · rw [if_pos hpc]
      cases hdec : decode (read32 t t.pc) with
      | known k => exact (fetchDecode_eq_ok t k).mpr ⟨hpc, hdec⟩
      | unknown w => exact (fetchDecode_eq_error t _).mpr (.inr ⟨hpc, w, hdec, rfl⟩)
    · rw [if_neg hpc]
      exact (fetchDecode_eq_error t _).mpr (.inl ⟨hpc, rfl⟩)

/-! ## The next snapshot is not read -/

/-- Settles O45: every meaning reads the current snapshot, and what it answers starts from `beginCycle` or is a `raise`, which both
overwrite the next one. -/
theorem nextSnapshotIsNeverRead : Obligations.NextSnapshotIsNeverRead := by
  intro i s n
  cases i <;> rfl

end Sys2Proof.Machine
end

section
/-!
The arithmetic family (spec/41_arithmetic.md): all six instructions are one register write and a commit, whatever the operands.
-/

namespace Sys2Proof.Machine

/-- A meaning that ends its cycle with `x[d] <- v` commits, and writes that register and nothing else. -/
theorem retire_setX_writesRegister (d : Reg) (v : Word) (s : State) :
    ∃ t, retire (setX d v (beginCycle s)) = .next t ∧ WritesRegister s t d v (s.pc + 4#32) :=
  ⟨_, rfl, writesRegister_setX d v s⟩

/-- `sext_32(imm)` as the 32-bit word of the immediate's signed value. -/
theorem sextImm_eq_ofInt (imm : Half) : sextImm imm = BitVec.ofInt 32 imm.toInt := by
  rw [← sextImm_toInt, BitVec.ofInt_toInt]

/-- Settles O7: each of the four ends its cycle with the sum or the difference written to `rd`. -/
theorem addSubRegisterResults : Obligations.AddSubRegisterResults := by
  intro rd rs rt s
  have hadd := retire_setX_writesRegister rd (s.x rs + s.x rt) s
  have hsub := retire_setX_writesRegister rd (s.x rs - s.x rt) s
  exact ⟨hadd, hadd, hsub, hsub⟩

/-- Settles O8: both end their cycle with `x[rs]` plus the sign-extended immediate written to `rt`. -/
theorem addImmediateResults : Obligations.AddImmediateResults := by
  intro rt rs imm s
  rw [← sextImm_eq_ofInt]
  have hadd := retire_setX_writesRegister rt (s.x rs + sextImm imm) s
  exact ⟨hadd, hadd⟩

end Sys2Proof.Machine
end

section
/-!
The multiply and divide family (spec/42_multiply_divide.md): MULT and MULTU always write HI and LO; DIV and DIVU raise their arithmetic
fault or write the remainder to HI and the quotient to LO, which are the library's word divisions.
-/

namespace Sys2Proof.Machine

/-- A meaning that ends its cycle by writing HI and LO commits, and writes those two and nothing else. -/
theorem retireHiLo_writesHiLo (hi lo : Word) (s : State) :
    ∃ t, retireHiLo hi lo s = .next t ∧ WritesHiLo s t hi lo :=
  ⟨_, rfl, writesHiLo_setHi_setLo hi lo s⟩

/-- The pair that `retireHiLo` leaves, read off the state it answers. -/
theorem retireHiLo_next {hi lo : Word} {s t : State} (h : retireHiLo hi lo s = .next t) : t.hi = hi ∧ t.lo = lo := by
  obtain ⟨u, hu, hw⟩ := retireHiLo_writesHiLo hi lo s
  obtain rfl : u = t := Host.Outcome.next.inj (hu.symm.trans h)
  exact ⟨hw.hi, hw.lo⟩

/-- `retireHiLo_writesHiLo` with the pair named by the answered state. -/
theorem retireHiLo_spec (hi lo : Word) (s : State) :
    ∃ t, retireHiLo hi lo s = .next t ∧ WritesHiLo s t t.hi t.lo ∧ t.hi = hi ∧ t.lo = lo := by
  obtain ⟨t, ht, hw⟩ := retireHiLo_writesHiLo hi lo s
  obtain ⟨rfl, rfl⟩ := retireHiLo_next ht
  exact ⟨t, ht, hw, rfl, rfl⟩

/-- A cycle that goes on raised no fault. -/
theorem raise_run_ne_running {f : Fault} {s t : State} (h : raise f s = .next t) : t.run ≠ .running := by
  simp [raise_next f s t h]

/-! ## The 64-bit product -/

theorem high32_append_low32 (p : DWord) : (high32 p ++ low32 p : BitVec 64) = p :=
  BitVec.extractLsb'_append_extractLsb'

/-- The signed product is at most 2^62 in magnitude, so 64 bits hold it. -/
theorem signedProduct_toInt (a b : Word) : (signedProduct a b).toInt = a.toInt * b.toInt := by
  have hlow : -(2 ^ 62) ≤ a.toInt * b.toInt := BitVec.le_toInt_mul_toInt
  have hhigh : a.toInt * b.toInt ≤ 2 ^ 62 := BitVec.toInt_mul_toInt_le
  exact BitVec.toInt_ofInt_eq_self (by omega) (by omega) (by omega)

/-- The unsigned product is below 2^64, so 64 bits hold it. -/
theorem unsignedProduct_toNat (a b : Word) : (unsignedProduct a b).toNat = a.toNat * b.toNat := by
  have hlt : a.toNat * b.toNat < 2 ^ 32 * 2 ^ 32 := Nat.mul_lt_mul'' a.isLt b.isLt
  exact Nat.mod_eq_of_lt hlt

/-- A product written in its two halves is HI:LO afterwards. -/
theorem retireHiLo_product (p : DWord) (s : State) :
    ∃ t, retireHiLo (high32 p) (low32 p) s = .next t ∧ WritesHiLo s t t.hi t.lo ∧ (t.hi ++ t.lo : BitVec 64) = p := by
  obtain ⟨t, ht, hw, hhi, hlo⟩ := retireHiLo_spec (high32 p) (low32 p) s
  exact ⟨t, ht, hw, by rw [hhi, hlo, high32_append_low32]⟩

/-- Settles O9: both write the halves of a 64-bit word, which holds the exact product. -/
theorem multiplyGivesTheExactProduct : Obligations.MultiplyGivesTheExactProduct := by
  intro rs rt s
  obtain ⟨t, ht, htw, htp⟩ := retireHiLo_product (signedProduct (s.x rs) (s.x rt)) s
  obtain ⟨u, hu, huw, hup⟩ := retireHiLo_product (unsignedProduct (s.x rs) (s.x rt)) s
  exact ⟨⟨t, ht, htw, htp ▸ signedProduct_toInt _ _⟩, ⟨u, hu, huw, hup ▸ unsignedProduct_toNat _ _⟩⟩

/-! ## Quotient and remainder as words -/

theorem ofInt_signedQuotient (a b : Word) : BitVec.ofInt 32 (signedQuotient a b) = a.sdiv b := by
  apply BitVec.eq_of_toInt_eq
  rw [BitVec.toInt_ofInt, BitVec.toInt_sdiv, signedQuotient]

/-- What is left of the dividend is the remainder of the truncating division. -/
theorem signedRemainder_eq_tmod (a b : Word) : signedRemainder a b = a.toInt.tmod b.toInt := by
  rw [Int.tmod_def, Int.mul_comm, signedRemainder, signedQuotient]

theorem ofInt_signedRemainder (a b : Word) : BitVec.ofInt 32 (signedRemainder a b) = a.srem b := by
  rw [signedRemainder_eq_tmod, ← BitVec.toInt_srem, BitVec.ofInt_toInt]

theorem ofNat_unsignedQuotient (a b : Word) : BitVec.ofNat 32 (unsignedQuotient a b) = a / b := by
  rw [unsignedQuotient, ← BitVec.toNat_udiv, BitVec.ofNat_toNat, BitVec.setWidth_eq]

theorem ofNat_unsignedRemainder (a b : Word) : BitVec.ofNat 32 (unsignedRemainder a b) = a % b := by
  rw [unsignedRemainder, unsignedQuotient, ← Nat.mod_eq_sub_div_mul, ← BitVec.toNat_umod, BitVec.ofNat_toNat,
    BitVec.setWidth_eq]

/-- The word quotient is the exact one but for the overflow operands. -/
theorem sdiv_toInt_of_not_overflow (a b : Word) (h : ¬ (a = 0x80000000#32 ∧ b = 0xFFFFFFFF#32)) :
    (a.sdiv b).toInt = a.toInt.tdiv b.toInt :=
  BitVec.toInt_sdiv_of_ne_or_ne a b (not_and_or.mp h)

/-! ## What DIV and DIVU do -/

theorem exec_div_by_zero (rs rt : Reg) (s : State) (hzero : s.x rt = 0#32) :
    exec (.div rs rt) s = raise (.arithmeticFault .divideByZero s.pc) s :=
  if_pos hzero

theorem exec_divu_by_zero (rs rt : Reg) (s : State) (hzero : s.x rt = 0#32) :
    exec (.divu rs rt) s = raise (.arithmeticFault .divideByZero s.pc) s :=
  if_pos hzero

theorem exec_div_overflow (rs rt : Reg) (s : State) (hrs : s.x rs = 0x80000000#32) (hrt : s.x rt = 0xFFFFFFFF#32)
    (hcfg : s.cfg.divOverflowFaults = true) :
    exec (.div rs rt) s = raise (.arithmeticFault .divideOverflow s.pc) s := by
  simp [exec, execDiv, divOverflows, hrs, hrt, hcfg]

/-- DIV that raises nothing writes the word remainder and the word quotient: the pair R124 writes for the overflow operands is
theirs too. -/
theorem exec_div_writes (rs rt : Reg) (s : State) (hzero : s.x rt ≠ 0#32)
    (hover : s.x rs = 0x80000000#32 ∧ s.x rt = 0xFFFFFFFF#32 → s.cfg.divOverflowFaults = false) :
    exec (.div rs rt) s = retireHiLo ((s.x rs).srem (s.x rt)) ((s.x rs).sdiv (s.x rt)) s := by
  rw [exec, execDiv, if_neg hzero, ofInt_signedRemainder, ofInt_signedQuotient]
  by_cases hoperands : s.x rs = 0x80000000#32 ∧ s.x rt = 0xFFFFFFFF#32
  · obtain ⟨hrs, hrt⟩ := hoperands
    have hrem : (0x80000000#32).srem 0xFFFFFFFF#32 = 0#32 := by decide
    have hquot : (0x80000000#32).sdiv 0xFFFFFFFF#32 = 0x80000000#32 := by decide
    simp [divOverflows, hrs, hrt, hover ⟨hrs, hrt⟩, hrem, hquot]
  · rw [divOverflows, decide_eq_false hoperands, if_neg Bool.false_ne_true]

theorem exec_divu_writes (rs rt : Reg) (s : State) (hzero : s.x rt ≠ 0#32) :
    exec (.divu rs rt) s = retireHiLo (s.x rs % s.x rt) (s.x rs / s.x rt) s := by
  rw [exec, execDivu, if_neg hzero, ofNat_unsignedRemainder, ofNat_unsignedQuotient]

/-- DIV whose cycle goes on had a divisor, and left the word remainder and quotient. -/
theorem exec_div_running (rs rt : Reg) (s t : State) (hrun : t.run = .running) (h : exec (.div rs rt) s = .next t) :
    s.x rt ≠ 0#32 ∧ t.hi = (s.x rs).srem (s.x rt) ∧ t.lo = (s.x rs).sdiv (s.x rt) := by
  have hzero : s.x rt ≠ 0#32 := fun hz =>
    raise_run_ne_running ((exec_div_by_zero rs rt s hz).symm.trans h) hrun
  refine ⟨hzero, retireHiLo_next ((exec_div_writes rs rt s hzero ?_).symm.trans h)⟩
  rintro ⟨hrs, hrt⟩
  by_contra hcfg
  exact raise_run_ne_running ((exec_div_overflow rs rt s hrs hrt (Bool.not_eq_false _ ▸ hcfg)).symm.trans h) hrun

/-- DIVU whose cycle goes on had a divisor, and left the word remainder and quotient. -/
theorem exec_divu_running (rs rt : Reg) (s t : State) (hrun : t.run = .running) (h : exec (.divu rs rt) s = .next t) :
    s.x rt ≠ 0#32 ∧ t.hi = s.x rs % s.x rt ∧ t.lo = s.x rs / s.x rt := by
  have hzero : s.x rt ≠ 0#32 := fun hz =>
    raise_run_ne_running ((exec_divu_by_zero rs rt s hz).symm.trans h) hrun
  exact ⟨hzero, retireHiLo_next ((exec_divu_writes rs rt s hzero).symm.trans h)⟩

/-! ## The results and the faults -/

/-- Settles O10: outside the two corners the word quotient and remainder are the exact truncating ones. -/
theorem signedDivideResult : Obligations.SignedDivideResult := by
  intro rs rt s hzero hover
  rw [exec_div_writes rs rt s hzero fun h => absurd h hover]
  obtain ⟨t, ht, hw, hhi, hlo⟩ := retireHiLo_spec ((s.x rs).srem (s.x rt)) ((s.x rs).sdiv (s.x rt)) s
  exact ⟨t, ht, hw, hlo ▸ sdiv_toInt_of_not_overflow _ _ hover, hhi ▸ BitVec.toInt_srem _ _⟩

/-- Settles O11: the word quotient and remainder are those of the unsigned values. -/
theorem unsignedDivideResult : Obligations.UnsignedDivideResult := by
  intro rs rt s hzero
  rw [exec_divu_writes rs rt s hzero]
  obtain ⟨t, ht, hw, hhi, hlo⟩ := retireHiLo_spec (s.x rs % s.x rt) (s.x rs / s.x rt) s
  exact ⟨t, ht, hw, hlo ▸ BitVec.toNat_udiv, hhi ▸ BitVec.toNat_umod⟩

/-- Settles O12: both test the divisor first, and a fault taken keeps everything but the run state. -/
theorem divideByZeroFaults : Obligations.DivideByZeroFaults := by
  intro rs rt s hzero
  rw [exec_div_by_zero rs rt s hzero, exec_divu_by_zero rs rt s hzero]
  exact ⟨raise_spec _ s, raise_spec _ s⟩

/-- Settles O13: with the parameter DIV takes the fault; without it DIV, and DIVU always, writes the word remainder and quotient, here
of two fixed words. -/
theorem divideOverflowFollowsTheParameter : Obligations.DivideOverflowFollowsTheParameter := by
  intro rs rt s hrs hrt
  have hzero : s.x rt ≠ 0#32 := by simp [hrt]
  refine ⟨fun hcfg => ?_, fun hcfg => ?_, ?_⟩
  · rw [exec_div_overflow rs rt s hrs hrt hcfg]
    exact raise_spec _ s
  · rw [exec_div_writes rs rt s hzero fun _ => hcfg, hrs, hrt]
    exact retireHiLo_writesHiLo _ _ s
  · rw [exec_divu_writes rs rt s hzero, hrs, hrt]
    exact retireHiLo_writesHiLo _ _ s

/-! ## The division laws (R125) -/

/-- Modulo 2^32 the law holds of every two words: it is the exact law of the values, narrowed. -/
theorem eq_sdiv_mul_add_srem (a b : Word) : a = a.sdiv b * b + a.srem b := by
  have hexact : signedQuotient a b * b.toInt + signedRemainder a b = a.toInt := by
    rw [signedRemainder, add_sub_cancel]
  calc a = BitVec.ofInt 32 (signedQuotient a b * b.toInt + signedRemainder a b) := by rw [hexact, BitVec.ofInt_toInt]
    _ = a.sdiv b * b + a.srem b := by
      rw [BitVec.ofInt_add, BitVec.ofInt_mul, ofInt_signedQuotient, ofInt_signedRemainder, BitVec.ofInt_toInt]

/-- The exact law, where the quotient fits. -/
theorem toInt_eq_sdiv_mul_add_srem (a b : Word) (h : ¬ (a = 0x80000000#32 ∧ b = 0xFFFFFFFF#32)) :
    a.toInt = (a.sdiv b).toInt * b.toInt + (a.srem b).toInt := by
  rw [sdiv_toInt_of_not_overflow a b h, BitVec.toInt_srem, Int.tdiv_mul_add_tmod]

theorem srem_natAbs_lt (a b : Word) (hb : b ≠ 0#32) : (a.srem b).toInt.natAbs < b.toInt.natAbs := by
  have hne : b.toInt ≠ 0 := fun h => hb (BitVec.eq_of_toInt_eq (h.trans BitVec.toInt_zero.symm))
  rw [BitVec.toInt_srem, Int.natAbs_tmod]
  exact Nat.mod_lt _ (Int.natAbs_pos.mpr hne)

theorem srem_zero_or_sign (a b : Word) : (a.srem b).toInt = 0 ∨ (a.srem b).toInt.sign = a.toInt.sign := by
  rw [BitVec.toInt_srem]
  by_cases hdvd : b.toInt ∣ a.toInt
  · exact .inl (Int.tmod_eq_zero_of_dvd hdvd)
  · exact .inr ((Int.sign_tmod _ _).trans (if_neg hdvd))

/-- Settles O14: a cycle that goes on left the word quotient and remainder, and those obey the laws. -/
theorem divisionLaws : Obligations.DivisionLaws := by
  intro rs rt s t hrun
  refine ⟨fun h => ?_, fun h => ?_⟩
  · obtain ⟨hzero, hhi, hlo⟩ := exec_div_running rs rt s t hrun h
    rw [hhi, hlo]
    exact ⟨eq_sdiv_mul_add_srem _ _, toInt_eq_sdiv_mul_add_srem _ _, srem_natAbs_lt _ _ hzero, srem_zero_or_sign _ _⟩
  · obtain ⟨hzero, hhi, hlo⟩ := exec_divu_running rs rt s t hrun h
    rw [hhi, hlo, BitVec.toNat_udiv, BitVec.toNat_umod]
    exact ⟨(Nat.div_add_mod' _ _).symm, Nat.mod_lt _ (Nat.pos_of_ne_zero fun hz => hzero (BitVec.eq_of_toNat_eq hz))⟩

end Sys2Proof.Machine
end

section
/-!
The logical, compare and shift family (spec/43_logical_compare_shift.md): all twelve instructions are one register write and a commit;
the values of the compares and the shifts are said here as arithmetic on the operands.
-/

namespace Sys2Proof.Machine

/-- Settles O15: each of the four ends its cycle with the bitwise combination of the two registers written to `rd`. -/
theorem logicalRegisterResults : Obligations.LogicalRegisterResults := by
  intro rd rs rt s
  have hwrite (v : Word) := retire_setX_writesRegister rd v s
  exact ⟨hwrite (s.x rs &&& s.x rt), hwrite (s.x rs ||| s.x rt), hwrite (s.x rs ^^^ s.x rt),
    hwrite (~~~(s.x rs ||| s.x rt))⟩

/-- Settles O16: each of the three combines `x[rs]` with the zero-extended immediate, the word of the immediate's unsigned value. -/
theorem logicalImmediateResults : Obligations.LogicalImmediateResults := by
  intro rt rs imm s
  rw [← zextImm_eq]
  have hwrite (v : Word) := retire_setX_writesRegister rt v s
  exact ⟨hwrite (s.x rs &&& zextImm imm), hwrite (s.x rs ||| zextImm imm), hwrite (s.x rs ^^^ zextImm imm)⟩

/-! ## Compare -/

/-- The compare result, by the order of the signed values. -/
theorem setOnLess_eq (a b : Word) : setOnLess a b = if a.toInt < b.toInt then 1#32 else 0#32 := by
  simp only [setOnLess, signedLess, decide_eq_true_eq]

/-- Settles O17: both write the compare result, and sign extension keeps the immediate's signed value. -/
theorem setOnLessResults : Obligations.SetOnLessResults := by
  intro s
  refine ⟨fun rd rs rt => ?_, fun rt rs imm => ?_⟩
  · rw [← setOnLess_eq]
    exact retire_setX_writesRegister rd _ s
  · rw [← sextImm_toInt, ← setOnLess_eq]
    exact retire_setX_writesRegister rt _ s

/-! ## Shift -/

/-- A left shift multiplies the value, modulo 2^32. -/
theorem shiftLeft_eq_ofNat_mul (a : Word) (n : Nat) : a <<< n = BitVec.ofNat 32 (a.toNat * 2 ^ n) := by
  apply BitVec.eq_of_toNat_eq
  rw [BitVec.toNat_shiftLeft, Nat.shiftLeft_eq, BitVec.toNat_ofNat]

/-- A logical right shift divides the unsigned value. -/
theorem ushiftRight_eq_ofNat_div (a : Word) (n : Nat) : a >>> n = BitVec.ofNat 32 (a.toNat / 2 ^ n) := by
  rw [← Nat.shiftRight_eq_div_pow, ← BitVec.toNat_ushiftRight, BitVec.ofNat_toNat, BitVec.setWidth_eq]

/-- An arithmetic right shift divides the signed value, rounding down. -/
theorem sshiftRight_eq_ofInt_div (a : Word) (n : Nat) : a.sshiftRight n = BitVec.ofInt 32 (a.toInt / 2 ^ n) := by
  have hval : (a.sshiftRight n).toInt = a.toInt / 2 ^ n := by
    rw [BitVec.toInt_sshiftRight, Int.shiftRight_eq_div_pow, Nat.cast_pow, Nat.cast_ofNat]
  rw [← hval, BitVec.ofInt_toInt]

/-- Settles O18: the three shifts of `x[rt]` are written to `rd`, as multiplication and division of its value. -/
theorem shiftResults : Obligations.ShiftResults := by
  intro rd rt sa s
  rw [← shiftLeft_eq_ofNat_mul, ← ushiftRight_eq_ofNat_div, ← sshiftRight_eq_ofInt_div]
  have hwrite (v : Word) := retire_setX_writesRegister rd v s
  exact ⟨hwrite (s.x rt <<< sa.toNat), hwrite (s.x rt >>> sa.toNat), hwrite ((s.x rt).sshiftRight sa.toNat)⟩

end Sys2Proof.Machine
end

section
/-!
The HI/LO move family (spec/44_hilo_move.md): each of the four moves is one write and a commit, MFHI and MFLO to a register, MTHI and MTLO
to one half of the pair.
-/

namespace Sys2Proof.Machine

/-- Settles O19: MFHI and MFLO end their cycle with HI or LO written to `rd`, MTHI and MTLO with `x[rs]` written to HI or LO. -/
theorem hiLoMoveResults : Obligations.HiLoMoveResults := by
  intro r s
  have hmfhi := retire_setX_writesRegister r s.hi s
  have hmflo := retire_setX_writesRegister r s.lo s
  have hmthi := writesHiLo_setHi (s.x r) s
  have hmtlo := writesHiLo_setLo (s.x r) s
  exact ⟨hmfhi, hmflo, ⟨_, rfl, hmthi⟩, ⟨_, rfl, hmtlo⟩⟩

end Sys2Proof.Machine
end

section
/-!
The load and store family (spec/45_load_store.md): where the effective address has the alignment the instruction needs, a load is one
register write of the bytes at the address and a store one write of its bytes; anywhere else LW, SW, LH and SH raise MisalignedData.
-/

namespace Sys2Proof.Machine

/-! ## The four instructions that need an aligned address (R170) -/

theorem exec_lh_of_even (rt rs : Reg) (imm : Half) (s : State) (he : (eaOf rs imm s).toNat % 2 = 0) :
    exec (.lh rt imm rs) s = retire (setX rt (sextHalf (memReadHalf s (eaOf rs imm s))) (beginCycle s)) :=
  if_pos ((halfAligned_iff _).mpr he)

theorem exec_sh_of_even (rt rs : Reg) (imm : Half) (s : State) (he : (eaOf rs imm s).toNat % 2 = 0) :
    exec (.sh rt imm rs) s = retire (memWriteHalf (eaOf rs imm s) ((s.x rt).extractLsb' 0 16) (beginCycle s)) :=
  if_pos ((halfAligned_iff _).mpr he)

/-- LW and SW at an address that is no multiple of 4. -/
theorem exec_word_misaligned (rt rs : Reg) (imm : Half) (s : State) (ha : (eaOf rs imm s).toNat % 4 ≠ 0) :
    exec (.lw rt imm rs) s = raise (.misalignedData s.pc (eaOf rs imm s)) s ∧
      exec (.sw rt imm rs) s = raise (.misalignedData s.pc (eaOf rs imm s)) s :=
  have hword := mt (wordAligned_iff _).mp ha
  ⟨if_neg hword, if_neg hword⟩

/-- LH and SH at an odd address. -/
theorem exec_half_misaligned (rt rs : Reg) (imm : Half) (s : State) (he : (eaOf rs imm s).toNat % 2 ≠ 0) :
    exec (.lh rt imm rs) s = raise (.misalignedData s.pc (eaOf rs imm s)) s ∧
      exec (.sh rt imm rs) s = raise (.misalignedData s.pc (eaOf rs imm s)) s :=
  have hhalf := mt (halfAligned_iff _).mp he
  ⟨if_neg hhalf, if_neg hhalf⟩

/-- Settles O24: each of the four raises the fault, and taking a fault changes the run state only. -/
theorem misalignedDataFaults : Obligations.MisalignedDataFaults := by
  intro rt rs imm s ea hea
  obtain rfl : ea = eaOf rs imm s := hea
  have hfault := raise_spec (.misalignedData s.pc (eaOf rs imm s)) s
  refine ⟨fun ha => ?_, fun he => ?_⟩
  · obtain ⟨hlw, hsw⟩ := exec_word_misaligned rt rs imm s ha
    rw [hlw, hsw]
    exact ⟨hfault, hfault⟩
  · obtain ⟨hlh, hsh⟩ := exec_half_misaligned rt rs imm s he
    rw [hlh, hsh]
    exact ⟨hfault, hfault⟩

/-! ## Loads -/

/-- A byte of an aligned word: all four are mapped or none is. -/
theorem byteAt_of_aligned (s : State) (hc : s.cfg.wf) (a : Word) (ha : a.toNat % 4 = 0) (i : Nat) (hi : i < 4) :
    byteAt s (a.toNat + i) = if mappedIn s.cfg a.toNat then s.mem.read (byteKey a i) else 0#8 := by
  rw [← byteKey_of_aligned a i hi ha, byteAt, mappedIn_aligned s.cfg hc a ha i hi]

/-- What `read32` gives at a multiple of 4 is the four bytes there, the lowest address least significant (spec/20_memory.md R45). -/
theorem read32_eq_bytes (s : State) (hc : s.cfg.wf) (a : Word) (ha : a.toNat % 4 = 0) :
    read32 s a =
      (byteAt s (a.toNat + 3) ++ byteAt s (a.toNat + 2) ++ byteAt s (a.toNat + 1) ++ byteAt s a.toNat : BitVec 32) := by
  have hbyte := byteAt_of_aligned s hc a ha
  have h0 : byteAt s a.toNat = _ := hbyte 0 (by decide)
  rw [hbyte 3 (by decide), hbyte 2 (by decide), hbyte 1 (by decide), h0, read32]
  split <;> rfl

/-- The second byte of a halfword at an even address stands at the next address, with no wrap. -/
theorem byteKey_one_of_even (ea : Word) (he : ea.toNat % 2 = 0) : byteKey ea 1 = ea.toNat + 1 := by
  have hlt := ea.isLt
  simp only [byteKey, BitVec.toNat_add, BitVec.toNat_ofNat]
  omega

/-- Settles O20: LW ends its cycle with the word at the effective address written to `rt`. -/
theorem loadWordResult : Obligations.LoadWordResult := by
  intro rt rs imm s ea ⟨hcfg, _⟩ hea ha
  obtain rfl : ea = eaOf rs imm s := hea
  rw [exec_lw_of_aligned rt rs imm s ha, ← read32_eq_bytes s hcfg _ ha]
  exact retire_setX_writesRegister rt _ s

/-- Settles O21: both end their cycle with what `MemRead` gives, sign-extended, written to `rt`. -/
theorem loadSubwordResults : Obligations.LoadSubwordResults := by
  intro rt rs imm s ea ⟨hcfg, _⟩ hea
  obtain rfl : ea = eaOf rs imm s := hea
  refine ⟨fun he => ?_, ?_⟩
  · rw [exec_lh_of_even rt rs imm s he, ← byteKey_one_of_even _ he, ← memReadHalf_eq s hcfg _ he]
    exact retire_setX_writesRegister rt _ s
  · rw [← memReadByte_eq s hcfg]
    exact retire_setX_writesRegister rt _ s

/-- Settles O25: LUI ends its cycle with its operand written to `rt`. -/
theorem loadUpperImmediateResult : Obligations.LoadUpperImmediateResult := by
  intro rt imm s
  rw [← luiImm_eq]
  exact retire_setX_writesRegister rt (luiImm imm) s

/-! ## Stores -/

/-- Settles O22: SW ends its cycle with one word write at the effective address. -/
theorem storeWordEffect : Obligations.StoreWordEffect := by
  intro rt rs imm s ea ⟨_, hmem, _⟩ hea ha
  obtain rfl : ea = eaOf rs imm s := hea
  exact ⟨_, exec_sw_of_aligned rt rs imm s ha, storesBytes_write32 _ _ s hmem⟩

/-- The bytes of a word's low halfword are the two low bytes of the word. -/
theorem lowHalf_byte (v : Word) (i : Nat) (hi : i < 2) :
    (v.extractLsb' 0 16).extractLsb' (8 * i) 8 = v.extractLsb' (8 * i) 8 := by
  rw [BitVec.extractLsb'_extractLsb'_of_le (by omega)]

/-- A store of the same bytes is the same store. -/
theorem StoresBytes.congr {s t : State} {addr : Word} {n : Nat} {v w : Nat → Byte} (h : StoresBytes s t addr n v)
    (hvw : ∀ i, i < n → v i = w i) : StoresBytes s t addr n w :=
  { h with stored := fun hmap i hi => (h.stored hmap i hi).trans (hvw i hi) }

/-- Settles O23: SH and SB end their cycle with a read-modify-write of the containing word that replaces their own bytes. -/
theorem storeSubwordEffects : Obligations.StoreSubwordEffects := by
  intro rt rs imm s ea ⟨hcfg, hmem, _⟩ hea
  obtain rfl : ea = eaOf rs imm s := hea
  refine ⟨fun he => ⟨_, exec_sh_of_even rt rs imm s he, ?_⟩, ⟨_, rfl, storesBytes_memWriteByte _ _ s hcfg hmem⟩⟩
  exact (storesBytes_memWriteHalf _ _ s hcfg hmem he).congr (lowHalf_byte (s.x rt))

end Sys2Proof.Machine
end

section
/-!
The control transfer family (spec/46_control_transfer.md): a jump sets the pc and writes at most its link register; the six branches are
one operation under six conditions.
-/

namespace Sys2Proof.Machine

/-! ## Jumps (R190 to R193) -/

/-- A meaning that ends its cycle with `pc <- target` commits, and changes nothing but the pc. -/
theorem retire_setPc_jumpsTo (target : Word) (s : State) :
    ∃ t, retire (setPc target (beginCycle s)) = .next t ∧ JumpsTo s t target :=
  ⟨_, rfl, jumpsTo_setPc target s⟩

/-- A meaning that ends its cycle with the link `pc + 8` in `d` and `pc <- target` commits, and changes nothing else. -/
theorem retire_link_writesRegister (d : Reg) (target : Word) (s : State) :
    ∃ t, retire (setPc target (setX d (linkValue s.pc) (beginCycle s))) = .next t ∧
      WritesRegister s t d (s.pc + 8#32) target :=
  ⟨_, rfl, writesRegister_setPc_setX d (linkValue s.pc) target s⟩

/-- Settles O26: J ends its cycle with the jump target in the pc, JAL with the link in register 31 as well. -/
theorem jumpResults : Obligations.JumpResults := by
  intro target s
  rw [← jumpTarget_eq]
  exact ⟨retire_setPc_jumpsTo (jumpTarget s.pc target) s, retire_link_writesRegister 31 (jumpTarget s.pc target) s⟩

/-- Settles O27: the target is `x[rs]` of the current snapshot, which the link, written to the next one, cannot change. -/
theorem registerJumpResults : Obligations.RegisterJumpResults := fun rd rs s =>
  ⟨retire_setPc_jumpsTo (s.x rs) s, retire_link_writesRegister rd (s.x rs) s⟩

/-! ## Conditional branches (R194 to R199) -/

/-- A branch on the condition `p` goes to `pc + 4` plus the scaled immediate exactly when `p` holds, and changes nothing but the pc. -/
theorem branchIf_decide_jumpsTo (p : Prop) [Decidable p] (imm : Half) (s : State) :
    ∃ t, branchIf (decide p) imm s = .next t ∧
      JumpsTo s t (if p then s.pc + 4#32 + (imm.signExtend 32 <<< 2) else s.pc + 4#32) := by
  simpa only [decide_eq_true_eq, branchTarget_eq] using branchIf_spec (decide p) imm s

/-- Settles O28: each branch is `branchIf` of its own condition; BNE's is the negation of the one its outcomes are stated by. -/
theorem branchResults : Obligations.BranchResults := by
  rintro rs rt imm s _ _ rfl rfl
  have hbne := branchIf_decide_jumpsTo (s.x rs ≠ s.x rt) imm s
  rw [ite_not] at hbne
  exact ⟨branchIf_decide_jumpsTo (s.x rs = s.x rt) imm s,
    hbne,
    branchIf_decide_jumpsTo ((s.x rs).toInt ≤ 0) imm s,
    branchIf_decide_jumpsTo ((s.x rs).toInt < 0) imm s,
    branchIf_decide_jumpsTo (0 ≤ (s.x rs).toInt) imm s,
    branchIf_decide_jumpsTo (0 < (s.x rs).toInt) imm s⟩

end Sys2Proof.Machine
end

section
/-!
The system family (spec/47_system.md): SYSCALL ends in a commit from every state, so what it does is what every committing cycle does.
-/

namespace Sys2Proof.Machine

/-- SYSCALL's cycle ends in a commit with `halt_request` set, from every state (R210). -/
theorem exec_syscall (s : State) : exec .syscall s = .next (commit true (beginCycle s)) := rfl

/-- A commit is no fault, so of the two things an instruction can do SYSCALL's is the second (decision D15). -/
theorem committed_syscall (s : State) : Committed .syscall s (commit true (beginCycle s)) :=
  (exec_cases .syscall s _ (exec_syscall s)).resolve_left fun ⟨f, hf⟩ =>
    commit_run_ne_fault true (beginCycle s) f (congrArg State.run hf)

/-- Settles O29: SYSCALL commits, and a committing instruction without a destination, a HI or LO write or a store leaves the registers
and memory alone. -/
theorem syscallHalts : Obligations.SyscallHalts := by
  intro s
  have hc := committed_syscall s
  have hregs : SameRegisters s (commit true (beginCycle s)) :=
    { gprs := fun r => hc.x_other r nofun, hi := hc.hi rfl, lo := hc.lo rfl }
  exact ⟨_, exec_syscall s, hc.run, hc.pc, hc.count, hregs, sameBytes_of_mem _ _ (hc.mem rfl), hc.next, hc.cfg⟩

end Sys2Proof.Machine
end

section
/-!
The exceptions family (spec/60_exceptions.md R220 to R226): a step that ends in a fault is one `raise`, of the fetch stage or of the
instruction fetched; who raises which fault, and that the only other way into `Halted` is SYSCALL's commit.
-/

namespace Sys2Proof.Machine

/-! ## A fault taken is one `raise` -/

/-- An instruction whose cycle ends in the fault `f` raised it: the other thing an instruction can do is a commit. -/
theorem exec_eq_raise_of_run (i : Instr) (s t : State) (f : Fault) (h : exec i s = .next t)
    (hrun : t.run = .halted (.fault f)) : exec i s = raise f s := by
  rcases exec_shape i s with ⟨g, hg⟩ | ⟨u, hu, -⟩
  · obtain rfl := raise_next g s t (hg.symm.trans h)
    obtain rfl : g = f := by simpa using hrun
    exact hg
  · obtain rfl := Host.Outcome.next.inj (hu.symm.trans h)
    exact absurd hrun (commit_run_ne_fault _ u f)

/-- A step that ends in a fault raised it, in the fetch stage or in the instruction fetched. -/
theorem step_fault_cases (s t : State) (f : Fault) (hlive : isHalted s.run = false) (h : step s = .next t)
    (hrun : t.run = .halted (.fault f)) :
    raise f s = .next t ∧ (fetchDecode s = .error f ∨ ∃ i, fetchDecode s = .ok i ∧ exec i s = raise f s) := by
  rcases step_cases s with ⟨hhalted, -⟩ | ⟨-, g, hg, hstep⟩ | ⟨-, i, hi, hstep⟩
  · simp [hlive] at hhalted
  · have hraise := hstep.symm.trans h
    obtain rfl : g = f := by simpa [raise_next g s t hraise] using hrun
    exact ⟨hraise, .inl hg⟩
  · have hexec := hstep.symm.trans h
    have hraise := exec_eq_raise_of_run i s t f hexec hrun
    exact ⟨hraise.symm.trans hexec, .inr ⟨i, hi, hraise⟩⟩

/-- Settles O35: the state `raise` answers differs from the one before in the run state only. -/
theorem faultsArePrecise : Obligations.FaultsArePrecise := by
  intro s t f hlive h hrun
  obtain ⟨hraise, -⟩ := step_fault_cases s t f hlive h hrun
  obtain ⟨u, hu, hfault⟩ := raise_spec f s
  obtain rfl := Host.Outcome.next.inj (hu.symm.trans hraise)
  exact hfault

/-! ## Who raises each fault -/

theorem raise_inj {f g : Fault} {s : State} (h : raise f s = raise g s) : f = g := by
  simpa using congrArg State.run (raise_next g s _ h.symm)

/-- A cycle that ends in a commit raised no fault. -/
theorem commit_ne_raise (b : Bool) (u : State) (f : Fault) (s : State) :
    Host.Outcome.next (commit b u) ≠ raise f s := fun h =>
  commit_run_ne_fault b u f (congrArg State.run (raise_next f s _ h.symm))

/-- A branch raises no fault. -/
theorem branchIf_ne_raise (taken : Bool) (imm : Half) (s : State) (f : Fault) : branchIf taken imm s ≠ raise f s := by
  cases taken <;> exact commit_ne_raise false _ f s

/-- An access that requires alignment raises its fault where the address lacks it, and no other fault. -/
theorem access_eq_raise {aligned : Bool} {u s : State} {f g : Fault}
    (h : (if aligned then retire u else raise g s) = raise f s) : ¬ aligned = true ∧ f = g := by
  cases aligned
  · exact ⟨Bool.false_ne_true, (raise_inj h).symm⟩
  · exact absurd h (commit_ne_raise false u f s)

/-- DIV raises a fault for a zero divisor, or for the overflow operands under `DIV_OVERFLOW_FAULTS` (R122, R124). -/
theorem exec_div_eq_raise (rs rt : Reg) (s : State) (f : Fault) (h : exec (.div rs rt) s = raise f s) :
    (s.x rt = 0#32 ∧ f = .arithmeticFault .divideByZero s.pc) ∨
    (s.x rs = 0x80000000#32 ∧ s.x rt = 0xFFFFFFFF#32 ∧ s.cfg.divOverflowFaults = true ∧
      f = .arithmeticFault .divideOverflow s.pc) := by
  by_cases hzero : s.x rt = 0#32
  · exact .inl ⟨hzero, raise_inj (h.symm.trans (exec_div_by_zero rs rt s hzero))⟩
  · by_cases hover : s.x rs = 0x80000000#32 ∧ s.x rt = 0xFFFFFFFF#32 → s.cfg.divOverflowFaults = false
    · rw [exec_div_writes rs rt s hzero hover] at h
      exact absurd h (commit_ne_raise false _ f s)
    · obtain ⟨⟨hrs, hrt⟩, hcfg⟩ := Classical.not_imp.mp hover
      rw [Bool.not_eq_false] at hcfg
      exact .inr ⟨hrs, hrt, hcfg, raise_inj (h.symm.trans (exec_div_overflow rs rt s hrs hrt hcfg))⟩

/-- DIVU raises a fault for a zero divisor only (R123). -/
theorem exec_divu_eq_raise (rs rt : Reg) (s : State) (f : Fault) (h : exec (.divu rs rt) s = raise f s) :
    s.x rt = 0#32 ∧ f = .arithmeticFault .divideByZero s.pc := by
  by_cases hzero : s.x rt = 0#32
  · exact ⟨hzero, raise_inj (h.symm.trans (exec_divu_by_zero rs rt s hzero))⟩
  · rw [exec_divu_writes rs rt s hzero] at h
    exact absurd h (commit_ne_raise false _ f s)

/-- Who raises a fault in the execute stage: DIV and DIVU an arithmetic one, LW, SW, LH and SH a misaligned access, and every other
instruction ends in a commit. -/
theorem exec_raise_cases (i : Instr) (s : State) (f : Fault) (h : exec i s = raise f s) :
    (∃ rs rt, (i = .div rs rt ∨ i = .divu rs rt) ∧ s.x rt = 0#32 ∧ f = .arithmeticFault .divideByZero s.pc) ∨
    (∃ rs rt, i = .div rs rt ∧ s.x rs = 0x80000000#32 ∧ s.x rt = 0xFFFFFFFF#32 ∧ s.cfg.divOverflowFaults = true ∧
      f = .arithmeticFault .divideOverflow s.pc) ∨
    (∃ rt rs imm, f = .misalignedData s.pc (eaOf rs imm s) ∧
      (((eaOf rs imm s).toNat % 4 ≠ 0 ∧ (i = .lw rt imm rs ∨ i = .sw rt imm rs)) ∨
        ((eaOf rs imm s).toNat % 2 ≠ 0 ∧ (i = .lh rt imm rs ∨ i = .sh rt imm rs)))) := by
  cases i with
  | div rs rt =>
    rcases exec_div_eq_raise rs rt s f h with ⟨hzero, hf⟩ | ⟨hrs, hrt, hcfg, hf⟩
    · exact .inl ⟨rs, rt, .inl rfl, hzero, hf⟩
    · exact .inr (.inl ⟨rs, rt, rfl, hrs, hrt, hcfg, hf⟩)
  | divu rs rt =>
    obtain ⟨hzero, hf⟩ := exec_divu_eq_raise rs rt s f h
    exact .inl ⟨rs, rt, .inr rfl, hzero, hf⟩
  | lw rt imm rs | sw rt imm rs =>
    obtain ⟨ha, hf⟩ := access_eq_raise h
    exact .inr (.inr ⟨rt, rs, imm, hf, .inl ⟨mt (wordAligned_iff _).mpr ha, by simp⟩⟩)
  | lh rt imm rs | sh rt imm rs =>
    obtain ⟨he, hf⟩ := access_eq_raise h
    exact .inr (.inr ⟨rt, rs, imm, hf, .inr ⟨mt (halfAligned_iff _).mpr he, by simp⟩⟩)
  | beq | bne | blez | bltz | bgez | bgtz => exact absurd h (branchIf_ne_raise _ _ s f)
  | _ => exact absurd h (commit_ne_raise _ _ f s)

/-- Settles O36: the faults of the fetch stage are its two errors, and those of the execute stage come from the instruction decoded. -/
theorem faultOrigins : Obligations.FaultOrigins := by
  intro s t f hlive h hrun
  obtain ⟨-, hfetch | ⟨i, hi, hraise⟩⟩ := step_fault_cases s t f hlive h hrun
  · rcases (fetchDecode_eq_error s f).mp hfetch with ⟨hpc, rfl⟩ | ⟨hpc, w, hdec, rfl⟩
    · exact ⟨rfl, hpc⟩
    · obtain rfl := ((decode_unknown_iff _ w).mp hdec).2
      exact ⟨rfl, hpc, rfl, hdec⟩
  · obtain ⟨-, hdec⟩ := (fetchDecode_eq_ok s i).mp hi
    rw [hdec]
    rcases exec_raise_cases i s f hraise with
      ⟨rs, rt, hdiv, hzero, rfl⟩ | ⟨rs, rt, rfl, hrs, hrt, hcfg, rfl⟩ | ⟨rt, rs, imm, rfl, haccess⟩
    · exact ⟨rfl, rs, rt, hzero, by simpa using hdiv⟩
    · exact ⟨rfl, hcfg, rs, rt, hrs, hrt, rfl⟩
    · exact ⟨rfl, rt, rs, imm, eaOf_eq rs imm s, by simpa using haccess⟩

/-! ## The normal end -/

/-- What a step from a core that is not halted leaves in the run state: a fault, or SYSCALL's or any other commit. -/
theorem step_run_cases (s t : State) (hlive : isHalted s.run = false) (h : step s = .next t) :
    (∃ f, t.run = .halted (.fault f)) ∨
    (fetchDecode s = .ok .syscall ∧ t.run = .halted .syscall) ∨ t.run = .running := by
  rcases step_next_cases s t h with ⟨hhalted, -⟩ | ⟨-, f, rfl⟩ | ⟨-, i, hi, hc⟩
  · simp [hlive] at hhalted
  · exact .inl ⟨f, rfl⟩
  · have hrun := hc.run
    by_cases hsys : i = .syscall
    · subst hsys
      exact .inr (.inl ⟨hi, hrun⟩)
    · rw [decide_eq_false hsys] at hrun
      exact .inr (.inr hrun)

/-- Settles O37: of the run states a step can leave only SYSCALL's commit is the normal end, and a step that fetches SYSCALL commits. -/
theorem normalEndOnlyBySyscall : Obligations.NormalEndOnlyBySyscall := by
  intro s t hlive h
  have hsyscall : s.pc.toNat % 4 = 0 ∧ decode (read32 s s.pc) = .known .syscall → t.run = .halted .syscall := by
    rintro ⟨hpc, hdec⟩
    rw [stepRunsTheDecodedInstruction s _ hlive hpc hdec, exec_syscall] at h
    exact congrArg State.run (Host.Outcome.next.inj h).symm
  rcases step_run_cases s t hlive h with ⟨f, hrun⟩ | ⟨hfetch, hrun⟩ | hrun
  · exact ⟨⟨by simp [hrun], hsyscall⟩, by simp [hrun], by simp [hrun]⟩
  · exact ⟨⟨fun _ => (fetchDecode_eq_ok s _).mp hfetch, hsyscall⟩, by simp [hrun], by simp [hrun]⟩
  · exact ⟨⟨by simp [hrun], hsyscall⟩, by simp [hrun], by simp [hrun]⟩

end Sys2Proof.Machine
end

section
/-!
The exceptions family, what the host may do between cycles (spec/60_exceptions.md R230 to R233; spec/70_reset_and_hazards.md R250, R251):
running, the accessors and the stop request, and that the invariant holds of the initial state and survives every one of
them.
-/

namespace Sys2Proof.Machine

/-! ## Running (R230) -/

/-- Steps of a halted core keep its state. -/
theorem core_run_of_halted (n : Nat) (s : State) (hrun : isHalted s.run = true) :
    Host.Core.run Sys2Proof.core n s = .next s := by
  induction n with
  | zero => rfl
  | succ n ih => exact (core_run_succ s s (step_of_halted s hrun) n).trans ih

/-- One round of run(n) from a core that is not halted. -/
theorem hostRun_succ (n k : Nat) (s t u : State) (hlive : isHalted s.run = false) (hstep : step s = .next t)
    (hrest : hostRun n t = .next (u, k)) : hostRun (n + 1) s = .next (u, k + (t.count - s.count)) := by
  simp [hostRun, hlive, hstep, hrest]

/-- A step from a core that is not halted counts one cycle, or counts none and ends in `Halted`. -/
theorem step_count_cases (s t : State) (hlive : isHalted s.run = false) (h : step s = .next t) :
    t.count = s.count + 1 ∨ (t.count = s.count ∧ isHalted t.run = true) := by
  rcases step_next_cases s t h with ⟨hhalted, -⟩ | ⟨-, f, rfl⟩ | ⟨-, i, -, hc⟩
  · simp [hlive] at hhalted
  · exact .inr ⟨rfl, rfl⟩
  · exact .inl hc.count

/-- Settles O59, by induction on the number of steps: a round that commits adds its cycle to the rest's, and one that faults leaves a
halted core, from which the rest executes nothing. -/
theorem runCountsCommittedCycles : Obligations.RunCountsCommittedCycles := by
  intro n
  induction n with
  | zero => exact fun s => ⟨s, 0, rfl, rfl, le_rfl, nofun, rfl⟩
  | succ n ih =>
    intro s
    by_cases hhalted : isHalted s.run = true
    · exact ⟨s, 0, hostRun_of_halted _ s hhalted, rfl, Nat.zero_le _, fun _ => hhalted, core_run_of_halted _ s hhalted⟩
    · rw [Bool.not_eq_true] at hhalted
      obtain ⟨t, hstep, -⟩ := stepAlwaysAnswers s
      obtain ⟨u, k, hrest, hcount, hle, hearly, hcore⟩ := ih t
      have hround := hostRun_succ n k s t u hhalted hstep hrest
      have hsteps := (core_run_succ s t hstep n).trans hcore
      rcases step_count_cases s t hhalted hstep with hone | ⟨hnone, hstopped⟩
      · exact ⟨u, _, hround, by omega, by omega, fun hlt => hearly (by omega), hsteps⟩
      · rw [hostRun_of_halted n t hstopped] at hrest
        obtain ⟨rfl, rfl⟩ : t = u ∧ 0 = k := by simpa using hrest
        exact ⟨t, _, hround, by omega, by omega, fun _ => hstopped, hsteps⟩

/-! ## The stop request (R233) -/

/-- Settles O58: the request writes the run state, and a step of a halted core stays put. -/
theorem externalStopHalts : Obligations.ExternalStopHalts := fun s =>
  ⟨rfl, rfl, rfl, rfl, rfl, rfl, step_of_halted (hostStop s) rfl⟩

/-! ## Register access (R231) -/

theorem hostRegister_refused (i : Nat) (v : Word) (s : State) (hi : 32 ≤ i) :
    hostReadRegister i s = .error (.hostRegisterIndex i) ∧ hostWriteRegister i v s = .error (.hostRegisterIndex i) :=
  ⟨dif_neg (Nat.not_lt.mpr hi), dif_neg (Nat.not_lt.mpr hi)⟩

theorem hostReadRegister_eq (r : Reg) (s : State) : hostReadRegister r s = .ok (s.x r) := dif_pos r.isLt

/-- A register write of the host is accepted: it is discarded for a hard-wired register 0 and goes to both snapshots otherwise. -/
theorem hostWriteRegister_eq (r : Reg) (v : Word) (s : State) :
    hostWriteRegister r v s =
      .ok (if hardwiredZero s.cfg r then s else withBoth { s.cur with gpr := s.cur.gpr.set r v } s) := by
  rw [hostWriteRegister, dif_pos r.isLt]
  split <;> rfl

/-- What a register write of the host leaves: the register written, and everything else as it was. -/
theorem hostWriteRegister_spec (r : Reg) (v : Word) (s : State) :
    ∃ t, hostWriteRegister r v s = .ok t ∧
      t.x r = (if r = 0 ∧ s.cfg.r0Hardwired = true then 0#32 else v) ∧ (∀ q : Reg, q ≠ r → t.x q = s.x q) ∧
      t.hi = s.hi ∧ t.lo = s.lo ∧ t.pc = s.pc ∧ t.mem = s.mem ∧ t.run = s.run ∧ t.count = s.count ∧ t.cfg = s.cfg := by
  refine ⟨_, hostWriteRegister_eq r v s, ?_⟩
  by_cases hz : hardwiredZero s.cfg r = true
  · rw [if_pos hz, if_pos ((hardwiredZero_iff _ _).mp hz)]
    exact ⟨if_pos hz, fun _ _ => rfl, rfl, rfl, rfl, rfl, rfl, rfl, rfl⟩
  · rw [if_neg hz]
    have hx := x_of_setX r v s (beginCycle s) (withBoth { s.cur with gpr := s.cur.gpr.set r v } s) rfl rfl
      (by rw [setX_nxt_gpr]; exact (if_neg hz).symm) rfl
    exact ⟨(hx r).trans (if_pos rfl), fun q hq => (hx q).trans (if_neg hq), rfl, rfl, rfl, rfl, rfl, rfl, rfl⟩

/-! ## Memory access (R232) -/

theorem hostWord_refused (addr v : Word) (s : State) (ha : addr.toNat % 4 ≠ 0) :
    hostReadWord addr s = .error (.hostMisalignedAddress addr) ∧
      hostWriteWord addr v s = .error (.hostMisalignedAddress addr) :=
  have hword := mt (wordAligned_iff addr).mp ha
  ⟨if_neg hword, if_neg hword⟩

theorem hostReadWord_of_aligned (addr : Word) (s : State) (ha : addr.toNat % 4 = 0) :
    hostReadWord addr s = .ok (read32 s addr) :=
  if_pos ((wordAligned_iff addr).mpr ha)

theorem hostWriteWord_of_aligned (addr v : Word) (s : State) (ha : addr.toNat % 4 = 0) :
    hostWriteWord addr v s = .ok (write32 addr v s) :=
  if_pos ((wordAligned_iff addr).mpr ha)

/-- The word at an address after a word write there: the word written where the address is mapped, and 0 where it is not. -/
theorem read32_write32_self (addr v : Word) (s : State) (hm : s.mem.wf) :
    read32 (write32 addr v s) addr = if mappedIn s.cfg addr.toNat then v else 0#32 := by
  cases hmap : mappedIn s.cfg addr.toNat
  · exact read32_unmapped _ _ (by rw [write32_cfg, hmap])
  · exact read32_write32 addr v s hm hmap

/-- What a word write of the host at a multiple of 4 leaves: its four bytes where they are mapped, and everything else as it was. -/
theorem hostWriteWord_spec (addr v : Word) (s : State) (hm : s.mem.wf) (ha : addr.toNat % 4 = 0) :
    ∃ t, hostWriteWord addr v s = .ok t ∧
      t.cur = s.cur ∧ t.nxt = s.nxt ∧ t.run = s.run ∧ t.count = s.count ∧ t.cfg = s.cfg ∧
      hostReadWord addr t = .ok (if mappedIn s.cfg addr.toNat then v else 0#32) ∧
      (∀ a : Nat, (∀ j, j < 4 → a ≠ addr.toNat + j) → t.mem.read a = s.mem.read a) ∧
      (mappedIn s.cfg addr.toNat = false → t = s) := by
  refine ⟨_, hostWriteWord_of_aligned addr v s ha, write32_cur .., write32_nxt .., write32_run .., write32_count ..,
    write32_cfg .., ?_, fun a hout => ?_, write32_unmapped addr v s⟩
  · rw [hostReadWord_of_aligned _ _ ha, read32_write32_self addr v s hm]
  · exact write32_read_other addr v s a fun j hj => byteKey_of_aligned addr j hj ha ▸ hout j hj

/-- Settles O57, accessor by accessor; a write of HI or LO replaces that field of both snapshots. -/
theorem hostAccessors : Obligations.HostAccessors := by
  intro s i addr v ⟨_, hm, _⟩
  refine ⟨hostRegister_refused i v s, fun r => hostReadRegister_eq r s, fun r => hostWriteRegister_spec r v s,
    hostWord_refused addr v s, fun ha => ⟨hostReadWord_of_aligned addr s ha, hostWriteWord_spec addr v s hm ha⟩,
    ⟨rfl, rfl, rfl⟩, ?_, ?_⟩
  · rintro t rfl
    exact ⟨rfl, rfl, rfl, fun _ => rfl, rfl, rfl, rfl, rfl⟩
  · rintro t rfl
    exact ⟨rfl, rfl, rfl, fun _ => rfl, rfl, rfl, rfl, rfl⟩

/-! ## The invariant of the initial state (R250) -/

theorem Memory.wf_nil : Memory.wf [] := ⟨List.Pairwise.nil, nofun⟩

theorem coreInv_hostInitialize (s : State) (hc : s.cfg.wf) : CoreInv (hostInitialize s) :=
  ⟨hc, Memory.wf_nil, nofun, rfl, fun _ => Snapshot.initial_gpr s.cfg.textBase 0⟩

/-- Settles O52: the initial state depends on the configuration only, lists no byte of memory and zeroes register 0; and the example
configuration is well formed. -/
theorem invHoldsAtReset : Obligations.InvHoldsAtReset :=
  ⟨coreInv_hostInitialize State.reset (by decide), fun c hc => coreInv_hostInitialize { State.reset with cfg := c } hc⟩

/-! ## The invariant after the host's writes -/

/-- A snapshot written to both copies keeps the invariant if it keeps a hard-wired register 0. -/
theorem coreInv_withBoth (c : Snapshot) (s : State) (hs : CoreInv s)
    (hc : s.cfg.r0Hardwired = true → c.gpr[(0 : Reg)] = s.cur.gpr[(0 : Reg)]) : CoreInv (withBoth c s) := by
  obtain ⟨hcfg, hm, hin, -, hzero⟩ := hs
  exact ⟨hcfg, hm, hin, rfl, fun hz => (hc hz).trans (hzero hz)⟩

/-- A word write at a multiple of 4 keeps the invariant. -/
theorem coreInv_write32 (addr v : Word) (s : State) (hs : CoreInv s) (ha : addr.toNat % 4 = 0) :
    CoreInv (write32 addr v s) := by
  obtain ⟨hcfg, hm, hin, hnxt, hzero⟩ := hs
  rw [CoreInv, write32_cfg, write32_nxt, write32_cur]
  exact ⟨hcfg, write32_wf addr v s hm, write32_mapped addr v s hcfg ha hin, hnxt, hzero⟩

/-- Loading an image from a multiple of 4 upward keeps the invariant. -/
theorem coreInv_loadImage (image : List Word) (base : Word) (s : State) (hs : CoreInv s) (ha : base.toNat % 4 = 0) :
    CoreInv (loadImage base image s) := by
  induction image generalizing base s with
  | nil => exact hs
  | cons w ws ih => exact ih _ _ (coreInv_write32 base w s hs ha) (add_aligned base 4#32 ha rfl)

theorem hostReset_of_aligned (image : List Word) (s : State) (hbase : s.cfg.textBase.toNat % 4 = 0) :
    hostReset image s = loadImage s.cfg.textBase image (hostInitialize s) :=
  if_pos ((wordAligned_iff _).mpr hbase)

/-- A reset keeps the invariant: the invariant makes the load base a multiple of 4. -/
theorem coreInv_hostReset (image : List Word) (s : State) (hs : CoreInv s) : CoreInv (hostReset image s) := by
  obtain ⟨hcfg, -⟩ := hs
  have ⟨_, _, hbase⟩ := hcfg
  rw [hostReset_of_aligned image s hbase]
  exact coreInv_loadImage image _ _ (coreInv_hostInitialize s hcfg) hbase

/-- A register write of the host keeps the invariant: it changes register 0 only where that is ordinary. -/
theorem coreInv_hostWriteRegister (i : Nat) (v : Word) (s t : State) (hs : CoreInv s)
    (h : hostWriteRegister i v s = .ok t) : CoreInv t := by
  by_cases hi : i < 32
  · obtain rfl := Except.ok.inj ((hostWriteRegister_eq ⟨i, hi⟩ v s).symm.trans h)
    split
    · exact hs
    · next hplain =>
      refine coreInv_withBoth _ s hs fun hz => Vector.getElem_set_ne hi _ fun hi0 => hplain ?_
      exact (hardwiredZero_iff _ _).mpr ⟨Fin.ext hi0, hz⟩
  · rw [(hostRegister_refused i v s (Nat.not_lt.mp hi)).2] at h
    cases h

/-- A word write of the host keeps the invariant. -/
theorem coreInv_hostWriteWord (addr v : Word) (s t : State) (hs : CoreInv s) (h : hostWriteWord addr v s = .ok t) :
    CoreInv t := by
  by_cases ha : addr.toNat % 4 = 0
  · obtain rfl := Except.ok.inj ((hostWriteWord_of_aligned addr v s ha).symm.trans h)
    exact coreInv_write32 addr v s hs ha
  · rw [(hostWord_refused addr v s ha).2] at h
    cases h

/-- Settles O54, operation by operation; the stop request changes the run state, of which the invariant does not speak. -/
theorem invKeptByTheHost : Obligations.InvKeptByTheHost := fun s hs =>
  ⟨coreInv_hostInitialize s hs.1, hs,
    fun _ => ⟨coreInv_withBoth _ s hs fun _ => rfl, coreInv_withBoth _ s hs fun _ => rfl⟩,
    fun image => coreInv_hostReset image s hs,
    fun i v t h => coreInv_hostWriteRegister i v s t hs h,
    fun addr v t h => coreInv_hostWriteWord addr v s t hs h⟩

end Sys2Proof.Machine
end

section
/-!
The reset family (spec/70_reset_and_hazards.md R250, R251): a reset leaves the initial state but for memory, at every base; the image word
by word at an aligned base; and the first fetch at a misaligned one.
-/

namespace Sys2Proof.Machine

/-! ## Registers, run state and counter after a reset -/

/-- The parts of the state that no word loaded by a reset touches. -/
theorem hostReset_frame (image : List Word) (s : State) :
    (hostReset image s).cur = Snapshot.initial s.cfg.textBase ∧ (hostReset image s).nxt = Snapshot.initial s.cfg.textBase ∧
      (hostReset image s).run = .ready ∧ (hostReset image s).count = 0 ∧ (hostReset image s).cfg = s.cfg := by
  rcases hostReset_cases image s with ⟨-, h⟩ | ⟨-, -, h⟩ | ⟨-, -, h⟩ <;> rw [h]
  · exact loadImage_frame image s.cfg.textBase (hostInitialize s)
  · exact ⟨rfl, rfl, rfl, rfl, rfl⟩
  · exact storeWords_frame (Config.misalignedImage s image) (hostInitialize s)

/-- After a reset every register, HI and LO show 0 and the pc is the load base (R34, R250). -/
theorem hostReset_registers (image : List Word) (s : State) :
    (∀ r : Reg, (hostReset image s).x r = 0#32) ∧ (hostReset image s).hi = 0#32 ∧ (hostReset image s).lo = 0#32 ∧
      (hostReset image s).pc = s.cfg.textBase := by
  obtain ⟨hcur, -, -, -, hcfg⟩ := hostReset_frame image s
  obtain ⟨hx, -⟩ := resetValues.1 s.cfg _ rfl
  refine ⟨fun r => (x_congr (hostInitialize s) _ (congrArg Snapshot.gpr hcur) hcfg r).trans (hx r), ?_, ?_, ?_⟩
  · exact congrArg Snapshot.hi hcur
  · exact congrArg Snapshot.lo hcur
  · exact congrArg Snapshot.pc hcur

/-! ## An image in memory -/

/-- Where the words after the first go: four bytes on, or at 0 after a first word at the top of the address space. -/
theorem add_four_toNat (base : Word) : (base + 4#32).toNat = (base.toNat + 4) % 2 ^ 32 := BitVec.toNat_add ..

/-- Loading an image changes no byte outside its words. -/
theorem loadImage_read_other (image : List Word) (base : Word) (s : State) (hbase : base.toNat % 4 = 0)
    (hend : base.toNat + 4 * image.length ≤ 2 ^ 32) (a : Nat) (ha : a < base.toNat ∨ base.toNat + 4 * image.length ≤ a) :
    (loadImage base image s).mem.read a = s.mem.read a := by
  induction image generalizing base s with
  | nil => rfl
  | cons w ws ih =>
    have hnext := add_four_toNat base
    rw [List.length_cons] at hend ha
    have hfirst : (write32 base w s).mem.read a = s.mem.read a := by
      refine write32_read_other base w s a fun i hi => ?_
      rw [byteKey_of_aligned base i hi hbase]
      omega
    exact (ih (base + 4#32) (write32 base w s) (by omega) (by omega) (by omega)).trans hfirst

/-- Memories that agree on the four bytes at an address hold the same word there. -/
theorem read32_congr (s t : State) (addr : Word) (hcfg : t.cfg = s.cfg)
    (h : ∀ i, i < 4 → t.mem.read (byteKey addr i) = s.mem.read (byteKey addr i)) : read32 t addr = read32 s addr := by
  rw [read32, read32, hcfg, h 0 (by decide), h 1 (by decide), h 2 (by decide), h 3 (by decide)]

/-- The first word of an image is there after the others are loaded. -/
theorem read32_loadImage_first (w : Word) (ws : List Word) (base : Word) (s : State) (hm : s.mem.wf)
    (hbase : base.toNat % 4 = 0) (hend : base.toNat + 4 * (w :: ws).length ≤ 2 ^ 32) :
    read32 (loadImage base (w :: ws) s) base = if mappedIn s.cfg base.toNat then w else 0#32 := by
  have hnext := add_four_toNat base
  obtain ⟨-, -, -, -, hcfg⟩ := loadImage_frame ws (base + 4#32) (write32 base w s)
  rw [List.length_cons] at hend
  rw [← read32_write32_self base w s hm]
  refine read32_congr (write32 base w s) _ base hcfg fun i hi => ?_
  rw [byteKey_of_aligned base i hi hbase]
  exact loadImage_read_other ws _ _ (by omega) (by omega) _ (by omega)

/-- Word `k` of an image stands `4*k` bytes from the base, with no wrap. -/
theorem image_address (base : Word) (k : Nat) (h : base.toNat + 4 * k < 2 ^ 32) :
    (base + BitVec.ofNat 32 (4 * k)).toNat = base.toNat + 4 * k := by
  rw [BitVec.toNat_add, BitVec.toNat_ofNat]
  omega

/-- Word `k` of a loaded image stands at `base + 4*k` where that is mapped; 0 is read where it is not (R251). -/
theorem read32_loadImage (image : List Word) (base : Word) (s : State) (hm : s.mem.wf) (hbase : base.toNat % 4 = 0)
    (hend : base.toNat + 4 * image.length ≤ 2 ^ 32) (k : Nat) (hk : k < image.length) :
    read32 (loadImage base image s) (base + BitVec.ofNat 32 (4 * k)) =
      if mappedIn s.cfg (base.toNat + 4 * k) then image[k] else 0#32 := by
  induction image generalizing base s k with
  | nil => cases hk
  | cons w ws ih =>
    cases k with
    | zero =>
      rw [BitVec.add_zero]
      exact read32_loadImage_first w ws base s hm hbase hend
    | succ k =>
      rw [List.length_cons] at hend hk
      have hnext : (base + 4#32).toNat = base.toNat + 4 := image_address base 1 (by omega)
      have haddr : base + BitVec.ofNat 32 (4 * (k + 1)) = base + 4#32 + BitVec.ofNat 32 (4 * k) := by
        rw [BitVec.add_assoc, ← BitVec.ofNat_add, Nat.mul_succ, Nat.add_comm]
      have hrest := ih (base + 4#32) (write32 base w s) (write32_wf base w s hm) (by omega) (by omega) k (by omega)
      rw [write32_cfg, hnext, Nat.add_assoc, Nat.add_comm 4] at hrest
      rw [haddr]
      exact hrest

/-- Settles O56: at a multiple of 4 the reset loads the image over an empty memory. -/
theorem imageLoadedByReset : Obligations.ImageLoadedByReset := by
  rintro s t image ⟨-, -, hbase⟩ hend rfl
  obtain ⟨-, -, hrun, hcount, hcfg⟩ := hostReset_frame image s
  obtain ⟨hx, hhi, hlo, hpc⟩ := hostReset_registers image s
  have hload := hostReset_of_aligned image s hbase
  refine ⟨hx, hhi, hlo, hpc, hrun, hcount, hcfg, fun k hk => ?_, fun a ha => ?_⟩
  · rw [hload]
    exact read32_loadImage image s.cfg.textBase (hostInitialize s) Memory.wf_nil hbase hend k hk
  · rw [byteAt, hload, loadImage_read_other image _ _ hbase hend a ha]
    exact ite_self _

/-! ## A misaligned load base -/

/-- A reset at a misaligned base leaves a canonical memory within well-formed regions, whatever words it stores. -/
theorem hostReset_misaligned_mem (image : List Word) (s : State) (hbase : s.cfg.textBase.toNat % 4 ≠ 0) :
    (hostReset image s).mem.wf ∧
      ((∀ r ∈ s.cfg.regions, r.wf) → ∀ c ∈ (hostReset image s).mem, mappedIn s.cfg c.1 = true) := by
  rcases hostReset_cases image s with ⟨ha, -⟩ | ⟨-, -, h⟩ | ⟨-, -, h⟩
  · exact absurd ha hbase
  · rw [h]
    exact ⟨Memory.wf_nil, fun _ => nofun⟩
  · rw [h]
    exact ⟨storeWords_wf _ (hostInitialize s) Memory.wf_nil, fun hr => storeWords_mapped _ (hostInitialize s) hr nofun⟩

/-- Settles O60: the state is the initial one but for memory, and its fetch stage faults on the pc. -/
theorem resetAtMisalignedBase : Obligations.ResetAtMisalignedBase := by
  rintro s t image hbase rfl
  obtain ⟨hcur, hnxt, hrun, hcount, hcfg⟩ := hostReset_frame image s
  obtain ⟨hx, hhi, hlo, hpc⟩ := hostReset_registers image s
  obtain ⟨hwf, hin⟩ := hostReset_misaligned_mem image s hbase
  have hfetch := (fetchStageFaults (hostReset image s) (by rw [hrun]; rfl)).1
  rw [hpc] at hfetch
  refine ⟨hx, hhi, hlo, hpc, hnxt.trans hcur.symm, hrun, hcount, hcfg, hwf, hin, ?_, hfetch hbase⟩
  rintro rfl
  exact if_neg (mt (wordAligned_iff _).mp hbase)

end Sys2Proof.Machine
end

section
/-!
The examples of the encoding (spec/95_test_vectors.md section 2): each word agrees with its instruction on the bits the instruction uses.
-/

namespace Sys2Proof

/-- A word decodes to the instruction it agrees with on the used bits. -/
theorem decode_of_usedBits {w : Word} {i : Instr} (h : w &&& usedBits i = encode i) : decode w = .known i :=
  (decodeReadsExactlyTheUsedBits w i).mpr h

/-- Settles O6: ten words agree with their instruction on the used bits (SYSCALL's with every bit set that it does not use), and the last has
a funct that no row of opcode 0 has. -/
theorem exampleWordsDecode : Obligations.ExampleWordsDecode :=
  ⟨decode_of_usedBits rfl, decode_of_usedBits rfl, decode_of_usedBits rfl, decode_of_usedBits rfl, decode_of_usedBits rfl,
    decode_of_usedBits rfl, decode_of_usedBits rfl, decode_of_usedBits rfl, decode_of_usedBits rfl, decode_of_usedBits rfl,
    (decode_unknown_iff _ _).mpr ⟨rfl, rfl⟩⟩

end Sys2Proof
end
